-- ==== Sys2Proof/Word.lean ====
section
/-! DEFINITION. Word.lean: the two value widths of the engine (00_scope.md R7: `bits8`, `bits16`, all unsigned). -/

namespace Sys2Proof

/-- `bits8`, an 8-bit value (R7). -/
abbrev Byte := BitVec 8

/-- `bits16`, a 16-bit value (R7): coordinates and colours. -/
abbrev Half := BitVec 16

end Sys2Proof
end

