-- ==== Sys2Proof/Config.lean ====
section
/-! DEFINITION. Config.lean: the parameters of 00_scope.md R6, fixed for one machine (10_state.md R33).
The OPEN ones are opaque constants: nothing can be proved of their values (DESIGN CHOICE, notes/assumptions/3.md). -/

namespace Sys2Proof

/-- `LINEMAP` (R6, R21): the physical pin of each logical line; five pins of the control port, eight of the data
port, `data[i]` carrying `D[i]` (R27). -/
structure LineMap where
  rst : Nat
  cs : Nat
  rs : Nat
  wr : Nat
  rd : Nat
  data : Vector Nat 8
  deriving DecidableEq, Repr, Inhabited

/-- The parameters of R6, but for `W` (fixed at 8: the data lines are a `Byte`) and `TABLE`, `TABLE_LEN`
(`State.table`, `State.tableLen`: DESIGN CHOICE, notes/assumptions/1.md). Every duration is in time units of one millisecond. -/
structure Config where
  /-- `T_WR_LOW`: least time the write strobe stays low. -/
  tWrLow : Nat
  /-- `T_WR_HIGH`: least time after the strobe returns high. -/
  tWrHigh : Nat
  /-- `T_SETTLE`: settle time after a delay-flagged record. -/
  tSettle : Nat
  /-- `T_RST_LOW`: duration of the panel reset pulse. -/
  tRstLow : Nat
  /-- `T_RST_HIGH`: wait after the panel reset pulse. -/
  tRstHigh : Nat
  /-- `PIX_W`: extra span the WRPIX window adds to x. -/
  pixW : Nat
  /-- `PIX_H`: extra span the WRPIX window adds to y. -/
  pixH : Nat
  /-- `CASET_OP`: the controller's column-range command. -/
  casetOp : Byte
  /-- `PASET_OP`: the controller's row-range command. -/
  pasetOp : Byte
  /-- `RAMWR_OP`: the controller's memory-write command. -/
  ramwrOp : Byte
  /-- `DATA_RESET`: the data lines after engine reset. -/
  dataReset : Byte
  /-- `LINEMAP`. -/
  lineMap : LineMap
  deriving DecidableEq, Repr

/-- `TIME_UNIT` (R6): one time unit is one millisecond. -/
def Config.timeUnitMs : Nat := 1

/-- `W` (R6, R189): the data-bus width. -/
def Config.busWidth : Nat := 8

/-- OPEN parameter `T_RST_LOW` (R6, D15). -/
opaque Config.openTRstLow : Nat

/-- OPEN parameter `T_RST_HIGH` (R6, D15). -/
opaque Config.openTRstHigh : Nat

/-- OPEN parameter `DATA_RESET` (R6, D13): "any 8-bit value". -/
opaque Config.openDataReset : Byte

/-- OPEN parameter `LINEMAP` (R6, D18). -/
opaque Config.openLineMap : LineMap

/-- The default of every parameter that R6 gives one, the opaque constant for every OPEN one. -/
def Config.standard : Config where
  tWrLow := 1
  tWrHigh := 1
  tSettle := 150
  tRstLow := Config.openTRstLow
  tRstHigh := Config.openTRstHigh
  pixW := 0
  pixH := 0
  casetOp := 0x2A
  pasetOp := 0x2B
  ramwrOp := 0x2C
  dataReset := Config.openDataReset
  lineMap := Config.openLineMap

/-- R189: an instance of width `w` other than 8 is refused, a model "refuses to build it". -/
def Config.build (w : Nat) (c : Config) : Option Config :=
  if w = Config.busWidth then some c else none

/-- R6, R101: both strobe holds are at least one time unit. -/
abbrev Config.wf (c : Config) : Prop := 1 ≤ c.tWrLow ∧ 1 ≤ c.tWrHigh

end Sys2Proof
end

