-- ==== Sys2Proof/Syntax.lean ====
section
/-! DEFINITION. Syntax.lean: the two kinds of instruction (00_scope.md R5): host requests and table records, one
constructor per row of spec/opcode_table.json, and the two forms in which they reach the engine (30_encoding.md R70). -/

namespace Sys2Proof

/-- One constructor per row of the opcode table. The first seven are host requests (R81), the last three table
records (R71). -/
inductive Instr where
  /-- BUSWR `v` (R106). -/
  | buswr (v : Byte)
  /-- CMD `opcode` (R110). -/
  | cmd (opcode : Byte)
  /-- FRAME `opcode, args` (R111); `nargs` is the length of `args`. -/
  | frame (opcode : Byte) (args : List Byte)
  /-- INIT `base` (R125). -/
  | init (base : Nat)
  /-- SETWIN `x0, y0, x1, y1` (R150). -/
  | setwin (x0 y0 x1 y1 : Half)
  /-- WRPIX `x, y, color` (R153). -/
  | wrpix (x y color : Half)
  /-- RSTP (R165). -/
  | rstp
  /-- ENT `op, a0, ..., a(n-1)` (R136). -/
  | ent (op : Byte) (args : List Byte)
  /-- ENTD `op, a0, ..., a(n-1)` (R137). -/
  | entd (op : Byte) (args : List Byte)
  /-- END (R138). -/
  | endRec
  deriving DecidableEq, Repr

/-- A host request as it stands at the port: format H (R80), one select field and the operands of every operation.
"Fields an operation does not use are ignored." -/
structure HostReq where
  op : BitVec 3
  v : Byte := 0
  opcode : Byte := 0
  args : List Byte := []
  base : Nat := 0
  x0 : Half := 0
  y0 : Half := 0
  x1 : Half := 0
  y1 : Half := 0
  x : Half := 0
  y : Half := 0
  color : Half := 0
  deriving DecidableEq, Repr

/-- The two forms the engine decodes (R70): a host request, or the bytes from an opcode position of the table. -/
inductive Code where
  | request (r : HostReq)
  | record (bytes : List Byte)
  deriving DecidableEq, Repr

/-- Why nothing is decoded: the reserved request code (R83), or a record cut short by the end of the table (R135)
at its opcode byte, its length byte or its arguments, with the bytes that could be read. -/
inductive DecodeError where
  | reservedOp (op : BitVec 3)
  | noOpcode
  | noLength (op : Byte)
  | noArgs (op len : Byte)
  deriving DecidableEq, Repr

end Sys2Proof
end

