-- ==== Sys2Proof/WellFormed.lean ====
section
/-! DEFINITION. WellFormed.lean: which instructions have an encoding (30_encoding.md R72, R82, R87). -/

namespace Sys2Proof

/-- R72, R87: a record's opcode is not 0x00 (it would read as END) and its argument count fits seven bits. Every host
request is well formed: "all legal, none checked" (R82). -/
def Instr.wf : Instr → Bool
  | .buswr _ => true
  | .cmd _ => true
  | .frame _ _ => true
  | .init _ => true
  | .setwin _ _ _ _ => true
  | .wrpix _ _ _ => true
  | .rstp => true
  | .ent op args => op != 0#8 && args.length ≤ 127
  | .entd op args => op != 0#8 && args.length ≤ 127
  | .endRec => true

/-- R5: is the instruction of the host level (true) or of the table level (false)? -/
def Instr.isRequest : Instr → Bool
  | .buswr _ => true
  | .cmd _ => true
  | .frame _ _ => true
  | .init _ => true
  | .setwin _ _ _ _ => true
  | .wrpix _ _ _ => true
  | .rstp => true
  | .ent _ _ => false
  | .entd _ _ => false
  | .endRec => false

end Sys2Proof
end

