-- ==== Sys2Proof/Decode.lean ====
section
/-! DEFINITION. Decode.lean: the decoder of both formats (30_encoding.md R70 to R83), the encoder, the table
assembler (R87) and the reading of a word of spec/opcode_table.json. -/

namespace Sys2Proof

/-- The argument count `L[6:0]` of a length byte (R73). -/
def lengthCount (l : Byte) : BitVec 7 := l.extractLsb' 0 7

/-- The delay flag `L[7]` of a length byte (R73). -/
def lengthDelay (l : Byte) : Bool := l.getLsbD 7

/-- The length byte of a record with `n` arguments, `n` or `0x80 OR n` (R87). -/
def lengthByte (d : Bool) (n : Nat) : Byte :=
  (if d then 0x80#8 else 0#8) ||| BitVec.ofNat 8 n

/-- Decode the record at the head of `bytes`, the table's bytes from an opcode position to its end (R75); the rest
follows. The terminator is tested before anything else (R76). -/
def decodeRecord (bytes : List Byte) : Except DecodeError (Instr × List Byte) :=
  match bytes with
  | [] => .error .noOpcode
  | op :: afterOp =>
    if op = 0#8 then .ok (.endRec, afterOp)
    else match afterOp with
      | [] => .error (.noLength op)
      | l :: afterLen =>
        let n := (lengthCount l).toNat
        if afterLen.length < n then .error (.noArgs op l)
        else if lengthDelay l then .ok (.entd op (afterLen.take n), afterLen.drop n)
        else .ok (.ent op (afterLen.take n), afterLen.drop n)

/-- Decode a host request by its `op` field (R81); `op = 7` is reserved (R83). -/
def decodeRequest (r : HostReq) : Except DecodeError Instr :=
  match r.op.toNat with
  | 0 => .ok (.buswr r.v)
  | 1 => .ok (.cmd r.opcode)
  | 2 => .ok (.frame r.opcode r.args)
  | 3 => .ok (.init r.base)
  | 4 => .ok (.setwin r.x0 r.y0 r.x1 r.y1)
  | 5 => .ok (.wrpix r.x r.y r.color)
  | 6 => .ok .rstp
  | _ => .error (.reservedOp r.op)

/-- Decode either format (R70); the bytes after a record are the rest. -/
def decode : Code → Except DecodeError (Instr × List Byte)
  | .request r => (decodeRequest r).map fun i => (i, [])
  | .record bytes => decodeRecord bytes

/-- The encoding of an instruction (R72, R74, R80, R81), for a well-formed one. -/
def encode : Instr → Code
  | .buswr v => .request { op := 0, v := v }
  | .cmd opcode => .request { op := 1, opcode := opcode }
  | .frame opcode args => .request { op := 2, opcode := opcode, args := args }
  | .init base => .request { op := 3, base := base }
  | .setwin x0 y0 x1 y1 => .request { op := 4, x0 := x0, y0 := y0, x1 := x1, y1 := y1 }
  | .wrpix x y color => .request { op := 5, x := x, y := y, color := color }
  | .rstp => .request { op := 6 }
  | .ent op args => .record (op :: lengthByte false args.length :: args)
  | .entd op args => .record (op :: lengthByte true args.length :: args)
  | .endRec => .record [0#8]

/-- The table bytes of a record; a host request has none. -/
def recordBytes (i : Instr) : List Byte :=
  match encode i with
  | .request _ => []
  | .record bytes => bytes

/-- The table assembler (R87): it refuses a record that is not well formed, and anything that is no record. -/
def assemble : List Instr → Option (List Byte)
  | [] => some []
  | i :: is =>
    if i.wf && !i.isRequest then (assemble is).map fun bytes => recordBytes i ++ bytes else none

/-- The most bytes one record has, 2 + 127 (R90). -/
def longestRecord : Nat := 129

/-- Byte `k` of a word of `n` bytes numbered as spec/opcode_table.json numbers it ("byte0*256 + byte1"): the first
byte is the most significant. -/
def wordByte (n w k : Nat) : Byte := BitVec.ofNat 8 (w / 256 ^ (n - 1 - k))

/-- The form a word of `nbits` bits of spec/opcode_table.json stands for (DEDUCED, notes/assumptions/11.md). A word of one
byte is END when all eight bits are 0 (the one row that fixes all eight), and else a host request whose `op` is bits
2:0 and whose operands are 0; a longer word is the bytes of a record, followed by zeros up to the longest record. -/
def tableCode (nbits w : Nat) : Code :=
  if nbits < 8 then .request { op := BitVec.ofNat 3 w }
  else if nbits = 8 then
    if w = 0 then .record (List.replicate longestRecord 0#8) else .request { op := BitVec.ofNat 3 w }
  else
    let n := (nbits + 7) / 8
    .record ((List.range n).map (wordByte n w) ++ List.replicate (longestRecord - n) 0#8)

/-- The instruction the decoder reads from a word of spec/opcode_table.json, operands above `nbits` being zeros. -/
def decodeTableWord (nbits w : Nat) : Option Instr :=
  match decode (tableCode nbits w) with
  | .ok (i, _) => some i
  | .error _ => none

end Sys2Proof
end

