-- ==== Sys2Proof/Machine/State.lean ====
section
/-! DEFINITION. Machine/State.lean: everything the spec gives the machine (10_state.md R20), the reset state (R37),
and the reasons a step can stop. -/

namespace Sys2Proof.Machine

/-- A line level (00_scope.md R7): 0 is electrically low, 1 high. -/
inductive Level where
  | low
  | high
  deriving DecidableEq, Repr

/-- The five control lines by logical role (R21). -/
inductive Line where
  | rst
  | cs
  | rs
  | wr
  | rd
  deriving DecidableEq, Repr

/-- The two faults of the engine (60_exceptions.md R171). -/
inductive Cause where
  /-- A table read would be at an index `>= TABLE_LEN` (R172). -/
  | tableBounds
  /-- A request has `op = 7` (R173). -/
  | reservedOp
  deriving DecidableEq, Repr

/-- One element of the event trace `EV` (00_scope.md R8). -/
inductive Event where
  | pin (l : Line) (b : Level)
  | data (v : Byte)
  | delay (n : Nat)
  | fault (c : Cause) (info : Nat)
  deriving DecidableEq, Repr

/-- One element of the transaction trace `TX` (R34): the level of `RS` and the byte on `D[7:0]` at the latching edge. -/
structure Xfer where
  rs : Level
  byte : Byte
  deriving DecidableEq, Repr

/-- The thirteen output lines (R21 to R27). -/
structure Lines where
  rst : Level
  cs : Level
  rs : Level
  wr : Level
  rd : Level
  d : Byte
  deriving DecidableEq, Repr

/-- The working latches (R28). -/
structure Latches where
  opc : Byte
  len : Byte
  cnt : BitVec 7
  argi : Nat
  x0 : Half
  y0 : Half
  x1 : Half
  y1 : Half
  color : Half
  deriving DecidableEq, Repr

/-- `ISTATE`, the state of the interpreter (R30). -/
inductive IState where
  | sOpc
  | sLen
  | sArg
  | sHalt
  deriving DecidableEq, Repr

/-- `PHASE` (R31). -/
inductive Phase where
  | idle
  | run
  | faulted
  deriving DecidableEq, Repr

/-- What the host can do (00_scope.md R10 (b), 70_reset_and_hazards.md R217): present a request, assert engine reset,
fill the table memory, or let the engine take a step. -/
inductive HostAct where
  | present (r : HostReq)
  | engineReset
  | fillTable (bytes : List Byte)
  | pause
  deriving DecidableEq, Repr

/-- Table memory: the bytes that differ from what an unlisted index reads as, by rising index. -/
abbrev Memory := List Host.Cell

/-- The machine's state (R20), and after it what the spec calls parameters of the step relation (R36), which stand
here because a step is a function of the state alone (DESIGN CHOICE, notes/assumptions/1.md, 2.md, 7.md). -/
structure State where
  /-- The bus lines (R21 to R27). -/
  lines : Lines
  /-- The working latches (R28). -/
  latches : Latches
  /-- `CUR`, the table cursor (R29). -/
  cur : Nat
  /-- `ISTATE` (R30). -/
  istate : IState
  /-- `DLY`, the delay flag of the current record (R32). -/
  dly : Bool
  /-- `PHASE` (R31); `STATUS` and its bits are views of it. -/
  phase : Phase
  /-- `FCAUSE` (R31). -/
  fcause : BitVec 2
  /-- `FADDR` (R31). -/
  faddr : Nat
  /-- `EV`, the event trace (R34). -/
  ev : List Event
  /-- `TX`, the transaction trace (R34). -/
  tx : List Xfer
  /-- `RD_LOG`, the read log (R34). -/
  rdLog : List Nat
  /-- `LASTCMD`, the controller's most recent command (R35); none since its reset. -/
  lastCmd : Option Byte
  /-- The parameters of 00_scope.md R6. -/
  cfg : Config
  /-- `TABLE` (20_memory.md R51). -/
  table : Memory
  /-- `TABLE_LEN` (R51). -/
  tableLen : Nat
  /-- The request presented at the host port and not yet accepted (60_exceptions.md R186, R188). -/
  port : Option HostReq
  /-- What the host does next, first action first (R36). -/
  host : List HostAct
  deriving DecidableEq, Repr

/-- Why a meaning stops. Both are the model's own names for a meaning asked for out of turn, which the spec says has no
step; `step` asks for none, so no step of the machine ends in one (notes/assumptions/9.md). -/
inductive Fault where
  /-- Raised by the meaning of a host request when `PHASE` is not IDLE: the request "is not accepted: it has no step"
  (60_exceptions.md R188, 93_implementation_defined.md U5). Safe: nothing is claimed of what follows. -/
  | notReady
  /-- Raised by the meaning of a table record when `PHASE` is not RUN or `ISTATE` is not S_OPC: the cursor "exists only
  while an INIT operation runs" (R29), and a record is performed from S_OPC only (42_init_table.md R126). Safe: nothing
  is claimed of what follows. -/
  | noRecordDue
  deriving DecidableEq, Repr

/-- Why an instruction has no meaning. -/
inductive Refusal where
  /-- Raised by `exec` for an instruction that has no meaning yet. Safe. No arm of `exec` raises it. -/
  | notModelled (mnemonic : String)
  deriving DecidableEq, Repr

/-- The state after engine reset (R37) of a machine with parameters `c`, with no table filled and no host action. The
latches, `CUR`, `ISTATE` and `DLY` have no reset value in R37: DESIGN CHOICE, unsafe, notes/assumptions/4.md, 5.md. -/
def State.resetWith (c : Config) : State where
  lines := { rst := .high, cs := .high, rs := .high, wr := .high, rd := .high, d := c.dataReset }
  latches := { opc := 0, len := 0, cnt := 0, argi := 0, x0 := 0, y0 := 0, x1 := 0, y1 := 0, color := 0 }
  cur := 0
  istate := .sHalt
  dly := false
  phase := .idle
  fcause := 0
  faddr := 0
  ev := []
  tx := []
  rdLog := []
  lastCmd := none
  cfg := c
  table := []
  tableLen := 0
  port := none
  host := []

/-- The machine right after reset, with the standard parameters. -/
def State.reset : State := State.resetWith Config.standard

end Sys2Proof.Machine
end

