-- ==== Sys2Proof/Machine/Ops.lean ====
section
/-! DEFINITION. Machine/Ops.lean: the named operations over table memory, lines, latches, traces and phase: the
primitives of 00_scope.md R8, fault entry (60_exceptions.md R175), engine reset (70_reset_and_hazards.md R195) and the
acceptance of a request (R187). -/

namespace Sys2Proof.Machine

/-! ### Table memory (20_memory.md R51, R52) -/

/-- What an index that no cell lists reads as (DESIGN CHOICE, notes/assumptions/1.md). -/
def Memory.unlisted : Byte := 0#8

/-- The byte at index `a`. -/
def Memory.read : Memory → Nat → Byte
  | [], _ => Memory.unlisted
  | (k, v) :: m, a => if k = a then v else Memory.read m a

/-- Store `b` at index `a`, keeping the canonical form. The engine never does this (R51); the host fills the table. -/
def Memory.write : Memory → Nat → Byte → Memory
  | [], a, b => if b = Memory.unlisted then [] else [(a, b)]
  | (k, v) :: m, a, b =>
    if a < k then if b = Memory.unlisted then (k, v) :: m else (a, b) :: (k, v) :: m
    else if a = k then if b = Memory.unlisted then m else (a, b) :: m
    else (k, v) :: Memory.write m a b

/-- Store `bytes` from index `a` on. -/
def Memory.writeBytes : Memory → Nat → List Byte → Memory
  | m, _, [] => m
  | m, a, b :: bytes => Memory.writeBytes (Memory.write m a b) (a + 1) bytes

/-- The `n` bytes from index `a` on. -/
def Memory.bytes (m : Memory) (a : Nat) : Nat → List Byte
  | 0 => []
  | n + 1 => Memory.read m a :: Memory.bytes m (a + 1) n

/-- Every listed index is at least `lo`, indices rise strictly, and no cell holds the unlisted byte. -/
def Memory.wfFrom : Nat → Memory → Bool
  | _, [] => true
  | lo, (k, v) :: m => decide (lo ≤ k) && v != Memory.unlisted && Memory.wfFrom (k + 1) m

/-- The canonical form of table memory. -/
def Memory.wf (m : Memory) : Bool := Memory.wfFrom 0 m

/-! ### Lines -/

/-- The level of a control line. -/
def Lines.get (ls : Lines) : Line → Level
  | .rst => ls.rst
  | .cs => ls.cs
  | .rs => ls.rs
  | .wr => ls.wr
  | .rd => ls.rd

/-- Line `l` takes level `b`; no other line changes (R8). -/
def Lines.set (ls : Lines) (l : Line) (b : Level) : Lines :=
  match l with
  | .rst => { ls with rst := b }
  | .cs => { ls with cs := b }
  | .rs => { ls with rs := b }
  | .wr => { ls with wr := b }
  | .rd => { ls with rd := b }

/-- The level that carries a bit (R7). -/
def levelOf (b : Bool) : Level := if b then .high else .low

/-- The control port as `LINEMAP` wires it (R6, R21): each physical pin with its level. -/
def State.controlPort (s : State) : List (Nat × Level) :=
  [(s.cfg.lineMap.rst, s.lines.rst), (s.cfg.lineMap.cs, s.lines.cs), (s.cfg.lineMap.rs, s.lines.rs),
    (s.cfg.lineMap.wr, s.lines.wr), (s.cfg.lineMap.rd, s.lines.rd)]

/-- The data port as `LINEMAP` wires it: the pin of `D[i]` has the level of bit `i` of the byte (R27). -/
def State.dataPort (s : State) : List (Nat × Level) :=
  (List.range 8).zipWith (fun i pin => (pin, levelOf (s.lines.d.getLsbD i))) s.cfg.lineMap.data.toList

/-! ### The primitives (R8) and the records they keep (10_state.md R34, R35) -/

/-- Append an event to `EV`. -/
def State.emit (s : State) (e : Event) : State := { s with ev := s.ev ++ [e] }

/-- The controller latches `(RS, D[7:0])` (R34); a command byte becomes its most recent command (R35). -/
def State.controllerLatch (s : State) : State :=
  { s with
    tx := s.tx ++ [{ rs := s.lines.rs, byte := s.lines.d }]
    lastCmd := if s.lines.rs = .low then some s.lines.d else s.lastCmd }

/-- The controller is held in reset: it has no most recent command (44_panel_reset.md R166). -/
def State.controllerReset (s : State) : State := { s with lastCmd := none }

/-- What the controller makes of line `l` taking level `b`: it latches at a rising edge of `WR` while `CS = 0` (R34),
and is reset by `RST` low (R26). -/
def State.controllerSees (s : State) (l : Line) (b : Level) : State :=
  match l, b with
  | .wr, .high => if s.lines.wr = .low ∧ s.lines.cs = .low then s.controllerLatch else s
  | .rst, .low => s.controllerReset
  | _, _ => s

/-- `PinWrite(L, b)`; it appends its event also when the line already has that level (D17). -/
def State.pinWrite (s : State) (l : Line) (b : Level) : State :=
  let seen := s.controllerSees l b
  { seen with lines := s.lines.set l b }.emit (.pin l b)

/-- `PortWrite(v)`: all eight data lines at once. -/
def State.portWrite (s : State) (v : Byte) : State :=
  { s with lines := { s.lines with d := v } }.emit (.data v)

/-- `Delay(n)`. -/
def State.delay (s : State) (n : Nat) : State := s.emit (.delay n)

/-- The record `MemRead(TABLE, a, 1)` leaves in `RD_LOG`. -/
def State.logRead (s : State) (a : Nat) : State := { s with rdLog := s.rdLog ++ [a] }

/-- The table's bytes from the cursor to its end: what the interpreter can still read. -/
def State.remaining (s : State) : List Byte := s.table.bytes s.cur (s.tableLen - s.cur)

/-! ### Latches -/

/-- `OPC <- v`. -/
def State.setOpc (s : State) (v : Byte) : State := { s with latches := { s.latches with opc := v } }

/-- `ARGI <- n`. -/
def State.setArgi (s : State) (n : Nat) : State := { s with latches := { s.latches with argi := n } }

/-- `X0 <- x0; Y0 <- y0; X1 <- x1; Y1 <- y1`. -/
def State.setWindow (s : State) (x0 y0 x1 y1 : Half) : State :=
  { s with latches := { s.latches with x0 := x0, y0 := y0, x1 := x1, y1 := y1 } }

/-- `COLOR <- v`. -/
def State.setColor (s : State) (v : Half) : State := { s with latches := { s.latches with color := v } }

/-! ### Fault entry and the way out -/

/-- The code of a fault in `FCAUSE` (R171). -/
def causeCode : Cause → BitVec 2
  | .tableBounds => 1
  | .reservedOp => 2

/-- `raise F(info)` (R175): the event, `FCAUSE`, `FADDR`, `PHASE <- FAULTED`; no line is written. -/
def State.raise (s : State) (c : Cause) (info : Nat) : State :=
  { s with fcause := causeCode c, faddr := info, phase := .faulted }.emit (.fault c info)

/-- Engine reset (R195): every piece of the engine's state takes its value of R37, the only way out of FAULTED (R176).
The parameters, the table memory and the host are not the engine's state and stay. -/
def State.engineReset (s : State) : State :=
  { State.resetWith s.cfg with table := s.table, tableLen := s.tableLen, port := s.port, host := s.host }

/-- The host fills the table memory (R217): `TABLE` is `bytes`. That a filling replaces the whole table and makes
`TABLE_LEN` its length, although R6 and R33 count `TABLE_LEN` among the constants of the instance, is the model's choice
(DESIGN CHOICE, notes/assumptions/25.md). -/
def State.fillTable (s : State) (bytes : List Byte) : State :=
  { s with table := Memory.writeBytes [] 0 bytes, tableLen := bytes.length }

/-! ### When a meaning may run -/

/-- The engine is ready exactly when `PHASE = IDLE` (R186). -/
abbrev State.ready (s : State) : Prop := s.phase = .idle

/-- A table record is due: an INIT operation runs and stands at an opcode position (42_init_table.md R125, R127). -/
abbrev State.recordDue (s : State) : Prop := s.phase = .run ∧ s.istate = .sOpc

/-- Accept a request whose operation is `body` (R187): `PHASE <- RUN`. A request presented when the engine is not
ready has no step (R188). -/
def State.accept (s : State) (body : State → State) : Host.Outcome State Fault Refusal :=
  if s.ready then .next (body { s with phase := .run }) else .fault .notReady

/-- The end of an operation without fault (R187): `PHASE <- IDLE`. -/
def State.finish (s : State) : State := { s with phase := .idle }

/-- Perform a table record. -/
def State.perform (s : State) (body : State → State) : Host.Outcome State Fault Refusal :=
  if s.recordDue then .next (body s) else .fault .noRecordDue

end Sys2Proof.Machine
end

