-- ==== Sys2Proof/Machine/Flags.lean ====
section
/-! DEFINITION. Machine/Flags.lean: the flags (10_state.md R32) and the read-only status (R31). -/

namespace Sys2Proof.Machine

/-- `BUSY`: 1 exactly when `PHASE = RUN`. -/
def State.busy (s : State) : Bool := s.phase == .run

/-- `FAULT`: 1 exactly when `PHASE = FAULTED`. -/
def State.faultBit (s : State) : Bool := s.phase == .faulted

/-- `STATUS`: bit 0 `BUSY`, bit 1 `FAULT`. -/
def State.status (s : State) : BitVec 2 :=
  match s.phase with
  | .idle => 0b00
  | .run => 0b01
  | .faulted => 0b10

/-- The split of the length byte (42_init_table.md R128): `LEN <- l; CNT <- LEN[6:0]; DLY <- LEN[7]`. -/
def State.splitLength (s : State) (l : Byte) : State :=
  { s with latches := { s.latches with len := l, cnt := lengthCount l }, dly := lengthDelay l }

end Sys2Proof.Machine
end

