-- ==== Sys2Proof/Machine/Operands.lean ====
section
/-! DEFINITION. Machine/Operands.lean: how operands become bytes (00_scope.md R7, 30_encoding.md R84) and the
arithmetic of the window corner (43_addressing_pixel.md R155). -/

namespace Sys2Proof.Machine

/-- `hi8(v) = v[15:8]` (R7). -/
def hi8 (v : Half) : Byte := v.extractLsb' 8 8

/-- `lo8(v) = v[7:0]` (R7). -/
def lo8 (v : Half) : Byte := v.extractLsb' 0 8

/-- `be16(v)`: the two argument bytes of a 16-bit operand, high first (R84, 20_memory.md R53). -/
def be16 (v : Half) : List Byte := [hi8 v, lo8 v]

/-- `(v + span) mod 65536`, the carry dropped (R153, R155). -/
def addSpan (v : Half) (span : Nat) : Half := BitVec.ofNat 16 (v.toNat + span)

end Sys2Proof.Machine
end

