-- ==== Sys2Proof/Machine/Procedures.lean ====
section
/-! DEFINITION. Machine/Procedures.lean: the procedures the operations share, run in place (00_scope.md R9): `BusWrite`,
`CmdOnly`, `Frame`, `SetWin`, and the interpreter's states `S_OPC`, `S_LEN`, `S_ARG`. -/

namespace Sys2Proof.Machine

/-- `BusWrite(v)` (40_bus_transaction.md R100). -/
def State.busWrite (s : State) (v : Byte) : State :=
  ((((s.portWrite v).pinWrite .wr .low).delay s.cfg.tWrLow).pinWrite .wr .high).delay s.cfg.tWrHigh

/-- The opening of both frames: `OPC <- opcode`, select the controller, command level, send the opcode (R110, R111). -/
def State.sendOpcode (s : State) (opcode : Byte) : State :=
  let t := ((s.setOpc opcode).pinWrite .cs .low).pinWrite .rs .low
  t.busWrite t.latches.opc

/-- `CmdOnly(opcode)` (41_command_frame.md R110). -/
def State.cmdOnly (s : State) (opcode : Byte) : State := s.sendOpcode opcode

/-- The argument loop of `Frame`: `BusWrite(args[ARGI]); ARGI <- ARGI + 1`, in order. -/
def State.sendArgs (s : State) : List Byte → State
  | [] => s
  | a :: args =>
    let t := s.busWrite a
    (t.setArgi (t.latches.argi + 1)).sendArgs args

/-- `Frame(opcode, args)` (R111); `RS` is written to 1 also when there are no arguments (R113). -/
def State.frame (s : State) (opcode : Byte) (args : List Byte) : State :=
  (((s.sendOpcode opcode).pinWrite .rs .high).setArgi 0).sendArgs args

/-- `SetWin(x0, y0, x1, y1)` (43_addressing_pixel.md R150): the column range first, then the row range. -/
def State.setWin (s : State) (x0 y0 x1 y1 : Half) : State :=
  let t := s.setWindow x0 y0 x1 y1
  let u := t.frame t.cfg.casetOp (be16 t.latches.x0 ++ be16 t.latches.x1)
  u.frame u.cfg.pasetOp (be16 u.latches.y0 ++ be16 u.latches.y1)

/-! ### The interpreter (42_init_table.md R127 to R129) -/

/-- `S_OPC` has read `op` at `CUR`. At the sentinel the interpreter halts with `CUR` on it (R127, D16). -/
def State.takeOpcode (s : State) (op : Byte) : State :=
  let t := (s.logRead s.cur).setOpc op
  if op = 0#8 then { t with istate := .sHalt } else { t with cur := t.cur + 1, istate := .sLen }

/-- `S_LEN` has read `l` at `CUR` (R128). -/
def State.takeLength (s : State) (l : Byte) : State :=
  let t := (s.logRead s.cur).splitLength l
  { t with cur := t.cur + 1, istate := .sArg }

/-- The reads of the argument bytes from index `a` on, in increasing order. -/
def State.logReads (s : State) (a n : Nat) : State := { s with rdLog := s.rdLog ++ List.range' a n }

/-- `S_ARG` once its bounds check has passed (R129): all arguments are read before the frame's first line change. -/
def State.dispatchArgs (s : State) (args : List Byte) : State :=
  let n := s.latches.cnt.toNat
  let t := (s.logReads s.cur n).frame s.latches.opc args
  let u := { t with cur := t.cur + n }
  let v := if u.dly then u.delay u.cfg.tSettle else u
  { v with istate := .sOpc }

/-- The interpreter in `S_ARG`, with its bounds check, the argument bytes being `args` (R129, R135). -/
def State.runArgs (s : State) (args : List Byte) : State :=
  if s.tableLen < s.cur + s.latches.cnt.toNat then s.raise .tableBounds s.tableLen else s.dispatchArgs args

/-- The interpreter in `S_LEN`, with its bounds check, the length byte being `l`; then `S_ARG` (R128, R126). -/
def State.runLength (s : State) (l : Byte) (args : List Byte) : State :=
  if s.tableLen ≤ s.cur then s.raise .tableBounds s.cur else (s.takeLength l).runArgs args

/-- One record of format T with length byte `l`, through `S_OPC`, `S_LEN` and `S_ARG` (R127 to R129). -/
def State.record (s : State) (op l : Byte) (args : List Byte) : State :=
  if s.tableLen ≤ s.cur then s.raise .tableBounds s.cur else (s.takeOpcode op).runLength l args

/-- An interpreter found in `S_ARG`: the rest of its record, the argument bytes read at the cursor. -/
def State.resumeArgs (s : State) : State := s.runArgs (s.table.bytes s.cur s.latches.cnt.toNat)

/-- An interpreter found in `S_LEN`: the rest of its record, length and argument bytes read at the cursor. -/
def State.resumeLength (s : State) : State :=
  let l := s.table.read s.cur
  s.runLength l (s.table.bytes (s.cur + 1) (lengthCount l).toNat)

/-- The record of format Z: `S_OPC` reads 0x00, the operation ends (R127, R132, R138). -/
def State.haltRecord (s : State) : State :=
  if s.tableLen ≤ s.cur then s.raise .tableBounds s.cur else (s.takeOpcode 0#8).finish

/-- A record that the end of the table cuts short (R135): what could be read is read, nothing is sent, and
`TableBounds` is raised with the first index that could not be read. -/
def State.cutShort (s : State) : DecodeError → State
  | .noOpcode => s.raise .tableBounds s.cur
  | .noLength op =>
    let t := s.takeOpcode op
    t.raise .tableBounds t.cur
  | .noArgs op l =>
    let t := (s.takeOpcode op).takeLength l
    t.raise .tableBounds t.tableLen
  | .reservedOp op => s.raise .reservedOp op.toNat

end Sys2Proof.Machine
end

