-- ==== Sys2Proof/Machine/Bus.lean ====
section
/-! DEFINITION. Machine/Bus.lean: BUSWR (40_bus_transaction.md R106). -/

namespace Sys2Proof.Machine

/-- BUSWR `v`: one `BusWrite` with the levels of `CS` and `RS` as they are. -/
def execBuswr (v : Byte) (s : State) : Host.Outcome State Fault Refusal :=
  s.accept fun t => (t.busWrite v).finish

end Sys2Proof.Machine
end

