-- ==== Sys2Proof/Machine/Frame.lean ====
section
/-! DEFINITION. Machine/Frame.lean: CMD and FRAME (41_command_frame.md R110, R111). -/

namespace Sys2Proof.Machine

/-- CMD `opcode`: the command-only frame. -/
def execCmd (opcode : Byte) (s : State) : Host.Outcome State Fault Refusal :=
  s.accept fun t => (t.cmdOnly opcode).finish

/-- FRAME `opcode, args`: the full frame; nothing is validated (R114). -/
def execFrame (opcode : Byte) (args : List Byte) (s : State) : Host.Outcome State Fault Refusal :=
  s.accept fun t => (t.frame opcode args).finish

end Sys2Proof.Machine
end

