-- ==== Sys2Proof/Machine/Panel.lean ====
section
/-! DEFINITION. Machine/Panel.lean: RSTP, the panel reset pulse (44_panel_reset.md R165). -/

namespace Sys2Proof.Machine

/-- RSTP: hold the controller in reset, release it; the controller's most recent command is gone (R166). -/
def execRstp (s : State) : Host.Outcome State Fault Refusal :=
  s.accept fun t =>
    ((((t.pinWrite .rst .low).delay t.cfg.tRstLow).pinWrite .rst .high).delay t.cfg.tRstHigh).finish

end Sys2Proof.Machine
end

