-- ==== Sys2Proof/Machine/Table.lean ====
section
/-! DEFINITION. Machine/Table.lean: INIT and the table records ENT, ENTD, END (42_init_table.md R125, R136 to R138).
INIT starts the interpreter; each following step performs one record (DESIGN CHOICE, notes/assumptions/6.md). -/

namespace Sys2Proof.Machine

/-- INIT `base`: `CUR <- base`, `ISTATE <- S_OPC`; the operation runs on (`PHASE = RUN`) until END or a fault. -/
def execInit (base : Nat) (s : State) : Host.Outcome State Fault Refusal :=
  s.accept fun t => { t with cur := base, istate := .sOpc }

/-- ENT `op, args`: the record with `d = 0`. -/
def execEnt (op : Byte) (args : List Byte) (s : State) : Host.Outcome State Fault Refusal :=
  s.perform fun t => t.record op (lengthByte false args.length) args

/-- ENTD `op, args`: the record with `d = 1`. -/
def execEntd (op : Byte) (args : List Byte) (s : State) : Host.Outcome State Fault Refusal :=
  s.perform fun t => t.record op (lengthByte true args.length) args

/-- END: the interpreter halts. -/
def execEndRec (s : State) : Host.Outcome State Fault Refusal :=
  s.perform fun t => t.haltRecord

end Sys2Proof.Machine
end

