-- ==== Sys2Proof/Machine/Window.lean ====
section
/-! DEFINITION. Machine/Window.lean: SETWIN and WRPIX (43_addressing_pixel.md R150, R153). -/

namespace Sys2Proof.Machine

/-- SETWIN `x0, y0, x1, y1`: any four values are sent unchanged (R152). -/
def execSetwin (x0 y0 x1 y1 : Half) (s : State) : Host.Outcome State Fault Refusal :=
  s.accept fun t => (t.setWin x0 y0 x1 y1).finish

/-- WRPIX `x, y, color`: the window of the pixel, then the memory-write frame (R153, R159). -/
def execWrpix (x y color : Half) (s : State) : Host.Outcome State Fault Refusal :=
  s.accept fun t =>
    let u := (t.setColor color).setWin x y (addSpan x t.cfg.pixW) (addSpan y t.cfg.pixH)
    (u.frame u.cfg.ramwrOp (be16 u.latches.color)).finish

end Sys2Proof.Machine
end

