-- ==== Sys2Proof/Machine/Dispatch.lean ====
section
/-! DEFINITION. Machine/Dispatch.lean: one arm per instruction. -/

namespace Sys2Proof.Machine

def exec (i : Instr) (s : State) : Host.Outcome State Fault Refusal :=
  match i with
  | .buswr v => Sys2Proof.Machine.execBuswr v s
  | .cmd opcode => Sys2Proof.Machine.execCmd opcode s
  | .frame opcode args => Sys2Proof.Machine.execFrame opcode args s
  | .init base => Sys2Proof.Machine.execInit base s
  | .setwin x0 y0 x1 y1 => Sys2Proof.Machine.execSetwin x0 y0 x1 y1 s
  | .wrpix x y color => Sys2Proof.Machine.execWrpix x y color s
  | .rstp => Sys2Proof.Machine.execRstp s
  | .ent op args => Sys2Proof.Machine.execEnt op args s
  | .entd op args => Sys2Proof.Machine.execEntd op args s
  | .endRec => Sys2Proof.Machine.execEndRec s

end Sys2Proof.Machine
end

