-- ==== Sys2Proof/Machine/Port.lean ====
section
/-! DEFINITION. Machine/Port.lean: where the next instruction comes from: the host's actions (70_reset_and_hazards.md
R195, R217), the request port (60_exceptions.md R186 to R188) and the table record at the cursor (42_init_table.md R127
to R129); and the placing of a word there. -/

namespace Sys2Proof.Machine

/-- What a step begins with: no instruction (the state after the step is already known), or an instruction to execute
in a state. -/
inductive Fetched where
  | moved (s : State)
  | issue (i : Instr) (s : State)
  deriving DecidableEq, Repr

/-- What the engine does when the host leaves it the step. IDLE: it accepts the request at the port, if there is one
(R186); `op = 7` raises `ReservedOp` (R173). RUN: in `S_OPC` the record at the cursor is next, or the bounds fault
(R135); in `S_LEN` and `S_ARG` the rest of the record (R128, R129); in `S_HALT` the operation ends (R125, R132).
FAULTED: no request is accepted and no primitive performed (R176). -/
def engineFetch (s : State) : Fetched :=
  match s.phase with
  | .faulted => .moved s
  | .idle =>
    match s.port with
    | none => .moved s
    | some r =>
      match decodeRequest r with
      | .ok i => .issue i { s with port := none }
      | .error e => .moved ({ s with port := none }.cutShort e)
  | .run =>
    match s.istate with
    | .sOpc =>
      match decodeRecord s.remaining with
      | .ok (i, _) => .issue i s
      | .error e => .moved (s.cutShort e)
    | .sLen => .moved s.resumeLength
    | .sArg => .moved s.resumeArgs
    | .sHalt => .moved s.finish

/-- The host's next action, or the engine's. Engine reset and the filling of the table are steps of the host, in any
phase (R195, R65); a request is put at the port when the port is free and waits there until accepted (R188). -/
def fetch (s : State) : Fetched :=
  match s.host with
  | [] => engineFetch s
  | .pause :: rest => engineFetch { s with host := rest }
  | .engineReset :: rest => .moved { s with host := rest }.engineReset
  | .fillTable bytes :: rest => .moved ({ s with host := rest }.fillTable bytes)
  | .present r :: rest =>
    match s.port with
    | none => .moved { s with host := rest, port := some r }
    | some _ => engineFetch s

/-- Place a form where the next step fetches it: a request at the port of a ready engine, the bytes of a record in the
table from the cursor of a running INIT. No host action comes before it. -/
def State.place (s : State) : Code → State
  | .request r => { s with phase := .idle, port := some r, host := [] }
  | .record bytes =>
    { s with
      phase := .run
      istate := .sOpc
      table := s.table.writeBytes s.cur bytes
      tableLen := max s.tableLen (s.cur + bytes.length)
      host := [] }

end Sys2Proof.Machine
end

