-- ==== Sys2Proof/Machine/Step.lean ====
section
/-! DEFINITION. Machine/Step.lean: one step: the host's action, or one request, or one table record (00_scope.md R11). -/

namespace Sys2Proof.Machine

/-- What comes of what a step begins with. -/
def Fetched.outcome : Fetched → Host.Outcome State Fault Refusal
  | .moved t => .next t
  | .issue i t => exec i t

/-- One step of the machine. -/
def step (s : State) : Host.Outcome State Fault Refusal := (fetch s).outcome

/-- `s` with the instruction of a word of spec/opcode_table.json placed where `step` fetches its next one. -/
def State.withFetchWord (s : State) (nbits w : Nat) : State := s.place (tableCode nbits w)

end Sys2Proof.Machine
end

