-- ==== Sys2Proof/Safety.lean ====
section
/-! DEFINITION. Safety.lean: the words claims use: what an operation appends to the traces (41_command_frame.md R110,
R111, 42_init_table.md R136, R137), the reading of the event trace (10_state.md R34, R35), least durations (R107,
R141), the duties of tables and hosts (70_reset_and_hazards.md R204 to R209, R217), the end of a run (R218), and the
machine's invariant. -/

namespace Sys2Proof.Machine

/-! ### What is appended to the traces -/

/-- The five events of `BusWrite(v)` (R100). -/
def busWriteEvents (c : Config) (v : Byte) : List Event :=
  [.data v, .pin .wr .low, .delay c.tWrLow, .pin .wr .high, .delay c.tWrHigh]

/-- The seven events of `CmdOnly(opcode)` (R110). -/
def cmdEvents (c : Config) (opcode : Byte) : List Event :=
  .pin .cs .low :: .pin .rs .low :: busWriteEvents c opcode

/-- The `8 + 5n` events of `Frame(opcode, args)` (R111). -/
def frameEvents (c : Config) (opcode : Byte) (args : List Byte) : List Event :=
  cmdEvents c opcode ++ .pin .rs .high :: args.flatMap (busWriteEvents c)

/-- A command byte `C v` of `TX` (R34). -/
def cmdXfer (v : Byte) : Xfer := { rs := .low, byte := v }

/-- A data byte `D v` of `TX` (R34). -/
def dataXfer (v : Byte) : Xfer := { rs := .high, byte := v }

/-- The transactions of a frame: `C opcode, D args[0], ...` (30_encoding.md R86). -/
def frameXfers (opcode : Byte) (args : List Byte) : List Xfer := cmdXfer opcode :: args.map dataXfer

/-- The byte left on the data lines by a frame: the last one sent (R111). -/
def lastByte (opcode : Byte) : List Byte → Byte
  | [] => opcode
  | a :: args => lastByte a args

/-- The arguments of the column-range and row-range frames (R84), for `x0, x1` or `y0, y1`. -/
def rangeArgs (v0 v1 : Half) : List Byte := [hi8 v0, lo8 v0, hi8 v1, lo8 v1]

/-- The events of SETWIN (43_addressing_pixel.md R150). -/
def setWinEvents (c : Config) (x0 y0 x1 y1 : Half) : List Event :=
  frameEvents c c.casetOp (rangeArgs x0 x1) ++ frameEvents c c.pasetOp (rangeArgs y0 y1)

/-- The transactions of SETWIN (R150). -/
def setWinXfers (c : Config) (x0 y0 x1 y1 : Half) : List Xfer :=
  frameXfers c.casetOp (rangeArgs x0 x1) ++ frameXfers c.pasetOp (rangeArgs y0 y1)

/-- The events of one table record (R136 to R138). -/
def recordEvents (c : Config) : Instr → List Event
  | .ent op args => frameEvents c op args
  | .entd op args => frameEvents c op args ++ [.delay c.tSettle]
  | _ => []

/-- The transactions of one table record. -/
def recordXfers : Instr → List Xfer
  | .ent op args => frameXfers op args
  | .entd op args => frameXfers op args
  | _ => []

/-- A record of format T (30_encoding.md R72). -/
def isEntry : Instr → Bool
  | .ent _ _ => true
  | .entd _ _ => true
  | _ => false

/-- The argument count of a record of format T. -/
def argCount : Instr → Nat
  | .ent _ args => args.length
  | .entd _ args => args.length
  | _ => 0

/-- The delay flag of a record of format T, as a number. -/
def delayBit : Instr → Nat
  | .entd _ _ => 1
  | _ => 0

/-- The bytes of a table with these records and its terminator (R71). -/
def tableBytes (records : List Instr) : List Byte := records.flatMap recordBytes ++ [0#8]

/-! ### Reading the traces -/

/-- What the event trace says of the bus: the line levels, the bytes latched and the controller's most recent command. -/
structure BusView where
  lines : Lines
  tx : List Xfer
  lastCmd : Option Byte
  deriving DecidableEq, Repr

/-- What the controller latches at an event (R34): at a rising edge of `WR` while `CS = 0`, `(RS, D)`. -/
def BusView.latched (b : BusView) : Event → Option Xfer
  | .pin l v =>
    if l = .wr ∧ v = .high ∧ b.lines.wr = .low ∧ b.lines.cs = .low then some { rs := b.lines.rs, byte := b.lines.d }
    else none
  | .data _ => none
  | .delay _ => none
  | .fault _ _ => none

/-- The controller's most recent command after an event (R35): a command byte latched becomes it; `RST` low takes it
away (44_panel_reset.md R166). -/
def BusView.commandAfter (b : BusView) (e : Event) : Option Byte :=
  match b.latched e with
  | some x => if x.rs = .low then some x.byte else b.lastCmd
  | none => if e = .pin .rst .low then none else b.lastCmd

/-- The line levels after an event. -/
def Lines.after (ls : Lines) : Event → Lines
  | .pin l v => ls.set l v
  | .data v => { ls with d := v }
  | .delay _ => ls
  | .fault _ _ => ls

/-- One event read. -/
def BusView.read (b : BusView) (e : Event) : BusView :=
  { lines := b.lines.after e
    tx := b.tx ++ (b.latched e).toList
    lastCmd := b.commandAfter e }

/-- The bus after engine reset (R37) of a machine with parameters `c`. -/
def BusView.atReset (c : Config) : BusView :=
  { lines := (State.resetWith c).lines, tx := [], lastCmd := none }

/-- The bus as the event trace `ev` since engine reset leaves it. -/
def BusView.after (c : Config) (ev : List Event) : BusView := ev.foldl BusView.read (BusView.atReset c)

/-- The bus as the state holds it. -/
def State.busView (s : State) : BusView := { lines := s.lines, tx := s.tx, lastCmd := s.lastCmd }

/-- The argument `v` joins the register write opened last. -/
def addArgument (v : Byte) : List (Byte × List Byte) → List (Byte × List Byte)
  | [] => []
  | [w] => [(w.1, w.2 ++ [v])]
  | w :: w' :: ws => w :: addArgument v (w' :: ws)

/-- The bus with the controller's register writes so far (R35). -/
structure ControllerView where
  bus : BusView
  writes : List (Byte × List Byte)
  deriving DecidableEq, Repr

/-- One event read by the controller (R35): a command byte opens a group, a data byte joins the group of the most recent
command; a data byte before any command since the controller's reset belongs to none. -/
def ControllerView.read (v : ControllerView) (e : Event) : ControllerView :=
  { bus := v.bus.read e
    writes :=
      match v.bus.latched e with
      | none => v.writes
      | some x =>
        if x.rs = .low then v.writes ++ [(x.byte, [])]
        else if v.bus.lastCmd = none then v.writes
        else addArgument x.byte v.writes }

/-- The controller's register writes after `ev`, `writes` being those before, of a machine whose bus is at `b`. -/
def BusView.writesAfter (b : BusView) (writes : List (Byte × List Byte)) (ev : List Event) : List (Byte × List Byte) :=
  (ev.foldl ControllerView.read { bus := b, writes := writes }).writes

/-- The controller's register writes in the event trace since engine reset of a machine with parameters `c`. -/
def registerWrites (c : Config) (ev : List Event) : List (Byte × List Byte) := (BusView.atReset c).writesAfter [] ev

/-- The sum of the `Delay` arguments (R107, R141): the least duration, in time units. -/
def leastDuration : List Event → Nat
  | [] => 0
  | .delay n :: es => n + leastDuration es
  | .pin _ _ :: es => leastDuration es
  | .data _ :: es => leastDuration es
  | .fault _ _ :: es => leastDuration es

/-- How many times a line is written in a trace. -/
def pinWrites (l : Line) : List Event → Nat
  | [] => 0
  | .pin k _ :: es => (if k = l then 1 else 0) + pinWrites l es
  | .data _ :: es => pinWrites l es
  | .delay _ :: es => pinWrites l es
  | .fault _ _ :: es => pinWrites l es

/-! ### Tables, hosts, runs -/

/-- The records of a table and how many bytes they take with their terminator, read by R75 from the head of `bytes`
for at most `fuel` records; none if the table is cut short or has no terminator (R134, R204). -/
def parseTable : Nat → List Byte → Option (List Instr × Nat)
  | 0, _ => none
  | fuel + 1, bytes =>
    match decodeRecord bytes with
    | .error _ => none
    | .ok (.endRec, _) => some ([], 1)
    | .ok (i, rest) =>
      (parseTable fuel rest).map fun p => (i :: p.1, bytes.length - rest.length + p.2)

/-- A well-formed table from index `base` (R134): it reaches a terminator below `TABLE_LEN`. -/
def State.tableWellFormed (s : State) (base : Nat) : Bool :=
  (parseTable (s.tableLen + 1) (s.table.bytes base (s.tableLen - base))).isSome

/-- The caller's contract for a window (43_addressing_pixel.md R152, R206); the engine does not check it. -/
def windowInOrder (x0 y0 x1 y1 : Half) : Bool := decide (x0 ≤ x1) && decide (y0 ≤ y1)

/-- The host keeps its duties in this state (R209, R217): while an operation runs it neither resets the engine nor
touches the table. -/
def State.hostDutiful (s : State) : Bool :=
  match s.host with
  | .engineReset :: _ => s.phase != .run
  | .fillTable _ :: _ => s.phase != .run
  | _ => true

/-- An idle engine is still to accept a request of this run: one at the port (`waiting`) when the host leaves the engine
a step, or one presented later. Engine reset ends the run, for a run starts from the reset state (R218,
notes/assumptions/26.md); pauses and fillings of the table after the last request do not lengthen it. -/
def requestToCome (waiting : Bool) : List HostAct → Bool
  | [] => waiting
  | .engineReset :: _ => false
  | .fillTable _ :: rest => requestToCome waiting rest
  | .pause :: rest => waiting || requestToCome false rest
  | .present _ :: rest => waiting || requestToCome true rest

/-- Where a run stands (R218). -/
inductive RunEnd where
  /-- An operation is in `RUN`, or a request of the run is still to be accepted. -/
  | notOver
  /-- The last request's operation has ended without a fault. -/
  | good
  /-- A fault was taken: the run is over, and not a good end. -/
  | byFault
  deriving DecidableEq, Repr

/-- Where the run stands in this state (R218). -/
def State.runEnd (s : State) : RunEnd :=
  match s.phase with
  | .run => .notOver
  | .faulted => .byFault
  | .idle => if requestToCome s.port.isSome s.host then .notOver else .good

/-- The run is over (R218). -/
def State.runOver (s : State) : Bool := s.runEnd != .notOver

/-- The run has come to its good end (R218). -/
def State.goodEnd (s : State) : Bool := s.runEnd == .good

/-! ### The invariant -/

/-- Every listed index of the table is below `TABLE_LEN` (20_memory.md R51). -/
def Memory.below (n : Nat) (m : Memory) : Bool := m.all fun cell => decide (cell.1 < n)

/-- What holds of the state between steps: the strobe idles high (R24, R105), `RD` is high (R25), the controller is not
held in reset (R26), an interpreter that runs stands at an opcode position (42_init_table.md R126), the status
registers agree with `PHASE` (R31), the table is in canonical form, and lines, `TX` and `LASTCMD` are what the event
trace says (R34, R35). -/
structure State.Inv (s : State) : Prop where
  wr_high : s.lines.wr = .high
  rd_high : s.lines.rd = .high
  rst_high : s.lines.rst = .high
  run_at_opcode : s.phase = .run → s.istate = .sOpc
  fault_cause : s.phase = .faulted ↔ s.fcause ≠ 0
  cause_legal : s.fcause ≠ 3
  no_fault_no_addr : s.fcause = 0 → s.faddr = 0
  table_wf : s.table.wf = true
  table_below : s.table.below s.tableLen = true
  trace : s.busView = BusView.after s.cfg s.ev

end Sys2Proof.Machine
end

