-- ==== Sys2Proof/Certificates/Slice0/Obligations.lean ====
section
/-! DEFINITION. Certificates/Slice0/Obligations.lean: the statements for the provers, from the numbered rules of spec/. -/

open Sys2Proof Sys2Proof.Machine

/-! ## Encoding and decoding -/

/-- 30_encoding.md R72, R74, R80, R81: decode of encode of every well-formed instruction is that instruction. -/
def Obligations.DecodeOfEncode : Prop :=
  ∀ i : Instr, i.wf = true → decode (encode i) = .ok (i, [])

/-- R75: a record is self-delimiting: whatever follows its bytes, the decoder reads that record and leaves the rest. -/
def Obligations.RecordIsSelfDelimiting : Prop :=
  ∀ (i : Instr) (rest : List Byte), i.wf = true → i.isRequest = false →
    decodeRecord (recordBytes i ++ rest) = .ok (i, rest)

/-- R72, R74, R75, R76: 0x00 at an opcode position is END, one byte long, whatever follows; any other byte opens a record
of `2 + L[6:0]` bytes, ENTD or ENT by `L[7]`. -/
def Obligations.RecordLengthFromItsFirstTwoBytes : Prop :=
  (∀ rest : List Byte, decodeRecord (0x00#8 :: rest) = .ok (.endRec, rest)) ∧
  ∀ (op l : Byte) (args rest : List Byte), op ≠ 0x00#8 → args.length = (l &&& 0x7F).toNat →
    decodeRecord (op :: l :: (args ++ rest)) =
      .ok (if l >>> 7 = 1 then .entd op args else .ent op args, rest)

/-- R73: `n = L[6:0]`, that is `L AND 0x7F`; `d = L[7]`, that is `L >> 7`. -/
def Obligations.LengthByteFields : Prop :=
  ∀ l : Byte, (lengthCount l).toNat = (l &&& 0x7F).toNat ∧ (lengthCount l).toNat ≤ 127 ∧
    (lengthDelay l = true ↔ l >>> 7 = 1)

/-- R81, R83: the operation of each code of `op`, with the operands R81 gives it; 7 is reserved. -/
def Obligations.RequestSelectedByOp : Prop :=
  ∀ r : HostReq,
    (r.op = 0 → decodeRequest r = .ok (.buswr r.v)) ∧
    (r.op = 1 → decodeRequest r = .ok (.cmd r.opcode)) ∧
    (r.op = 2 → decodeRequest r = .ok (.frame r.opcode r.args)) ∧
    (r.op = 3 → decodeRequest r = .ok (.init r.base)) ∧
    (r.op = 4 → decodeRequest r = .ok (.setwin r.x0 r.y0 r.x1 r.y1)) ∧
    (r.op = 5 → decodeRequest r = .ok (.wrpix r.x r.y r.color)) ∧
    (r.op = 6 → decodeRequest r = .ok .rstp) ∧
    (r.op = 7 → decodeRequest r = .error (.reservedOp 7))

/-- R135: the only byte sequences the record decoder refuses are those cut short at the opcode byte, at the length byte
or within the arguments, each by its name. -/
def Obligations.OnlyCutRecordsAreRefused : Prop :=
  ∀ (bytes : List Byte) (e : DecodeError), decodeRecord bytes = .error e ↔
    (bytes = [] ∧ e = .noOpcode) ∨
    (∃ op, op ≠ 0x00#8 ∧ bytes = [op] ∧ e = .noLength op) ∨
    (∃ op l more, op ≠ 0x00#8 ∧ bytes = op :: l :: more ∧ more.length < (l &&& 0x7F).toNat ∧ e = .noArgs op l)

/-- 95_test_vectors.md S1, S2, V41, V48 and R80: words written out from the encodings decode to what they stand for. -/
def Obligations.SampleWordsDecode : Prop :=
  decodeRecord [0xF7, 0x01, 0x20, 0x00#8] = .ok (.ent 0xF7 [0x20], [0x00#8]) ∧
  decodeRecord [0x11, 0x80, 0x29, 0x80, 0x00#8] = .ok (.entd 0x11 [], [0x29, 0x80, 0x00#8]) ∧
  decodeRecord [0x2A, 0x84, 0x00#8, 0x00#8, 0x00#8, 0xEF] = .ok (.entd 0x2A [0x00#8, 0x00#8, 0x00#8, 0xEF], []) ∧
  decodeRecord [0x00#8] = .ok (.endRec, []) ∧
  decodeRequest { op := 0b000, v := 0xF7 } = .ok (.buswr 0xF7) ∧
  decodeRequest { op := 0b011, base := 3 } = .ok (.init 3) ∧
  decodeRequest { op := 0b101, x := 50, y := 51, color := 0xF777 } = .ok (.wrpix 50 51 0xF777)

/-- R87: the bytes of ENT, ENTD and END, one record after another; ENT and ENTD with `op = 0x00` or more than 127
arguments are refused. -/
def Obligations.AssemblerBytesAndRefusals : Prop :=
  (∀ (op : Byte) (args : List Byte) (is : List Instr), op ≠ 0x00#8 → args.length ≤ 127 →
    assemble (.ent op args :: is) =
      (assemble is).map fun bytes => op :: BitVec.ofNat 8 args.length :: (args ++ bytes)) ∧
  (∀ (op : Byte) (args : List Byte) (is : List Instr), op ≠ 0x00#8 → args.length ≤ 127 →
    assemble (.entd op args :: is) =
      (assemble is).map fun bytes => op :: (0x80 ||| BitVec.ofNat 8 args.length) :: (args ++ bytes)) ∧
  (∀ is : List Instr, assemble (.endRec :: is) = (assemble is).map fun bytes => 0x00#8 :: bytes) ∧
  assemble [] = some [] ∧
  ∀ (op : Byte) (args : List Byte) (is : List Instr), op = 0x00#8 ∨ 127 < args.length →
    assemble (.ent op args :: is) = none ∧ assemble (.entd op args :: is) = none

/-- R71, R75: a table read record by record gives back the records it was made of and the place of its terminator. -/
def Obligations.TableReadsBack : Prop :=
  ∀ (records : List Instr) (rest : List Byte),
    (∀ i ∈ records, isEntry i = true ∧ i.wf = true) →
    parseTable (records.length + 1) (tableBytes records ++ rest) = some (records, (tableBytes records).length)

/-! ## Operands -/

/-- R84: `be16(v) = [v[15:8], v[7:0]]`, high byte first, with the source's example 0xF777. -/
def Obligations.BigEndianOperand : Prop :=
  (∀ v : Half, ∃ hi lo : Byte, be16 v = [hi, lo] ∧ hi.toNat = v.toNat / 256 ∧ lo.toNat = v.toNat % 256) ∧
  be16 0xF777 = [0xF7, 0x77]

/-- 43_addressing_pixel.md R155: the window corner is computed modulo 65536. -/
def Obligations.WindowCornerWraps : Prop :=
  ∀ (v : Half) (span : Nat), (addSpan v span).toNat = (v.toNat + span) % 65536

/-- 10_state.md R27: `D[i]` is bit `i` of the byte (the spec's decision D18, notes/assumptions/17.md), on the pin
`LINEMAP` gives data line `i`. -/
def Obligations.DataLinesCarryTheirBits : Prop :=
  ∀ (s : State) (i : Fin 8),
    s.dataPort[i.val]? = some (s.cfg.lineMap.data[i], if s.lines.d.getLsbD i.val then .high else .low)

/-- 60_exceptions.md R189: an instance with `W` other than 8 is refused. -/
def Obligations.OtherBusWidthsRefused : Prop :=
  ∀ (w : Nat) (c : Config), (w ≠ 8 → Config.build w c = none) ∧ (w = 8 → Config.build w c = some c)

/-! ## The instructions, each with its result and its frame -/

/-- 40_bus_transaction.md R100, R102, R106: BUSWR in any line levels; one byte, one pulse, latched exactly when `CS = 0`
with the role `RS` gives it; `WR` ends at 1, whatever it was (R105). Everything else is unchanged. -/
def Obligations.BuswrSendsOneByte : Prop :=
  (∀ r : HostReq, r.op = 0 → decodeRequest r = .ok (.buswr r.v)) ∧
  ∀ (v : Byte) (s : State), s.ready →
    exec (.buswr v) s = .next
      { s with
        lines := { s.lines with d := v, wr := .high }
        ev := s.ev ++ [.data v, .pin .wr .low, .delay s.cfg.tWrLow, .pin .wr .high, .delay s.cfg.tWrHigh]
        tx := if s.lines.cs = .low then s.tx ++ [{ rs := s.lines.rs, byte := v }] else s.tx
        lastCmd := if s.lines.cs = .low ∧ s.lines.rs = .low then some v else s.lastCmd }

/-- 41_command_frame.md R110: CMD, its result and its frame. -/
def Obligations.CmdSendsCommandOnlyFrame : Prop :=
  (∀ r : HostReq, r.op = 1 → decodeRequest r = .ok (.cmd r.opcode)) ∧
  ∀ (opcode : Byte) (s : State), s.ready →
    exec (.cmd opcode) s = .next
      { s with
        lines := { s.lines with cs := .low, rs := .low, wr := .high, d := opcode }
        latches := { s.latches with opc := opcode }
        ev := s.ev ++ [.pin .cs .low, .pin .rs .low, .data opcode, .pin .wr .low, .delay s.cfg.tWrLow,
          .pin .wr .high, .delay s.cfg.tWrHigh]
        tx := s.tx ++ [{ rs := .low, byte := opcode }]
        lastCmd := some opcode }

/-- 41_command_frame.md R111, R113: FRAME with any number of arguments, none included; its result and its frame. -/
def Obligations.FrameSendsFullFrame : Prop :=
  (∀ r : HostReq, r.op = 2 → decodeRequest r = .ok (.frame r.opcode r.args)) ∧
  ∀ (opcode : Byte) (args : List Byte) (s : State), s.ready →
    exec (.frame opcode args) s = .next
      { s with
        lines := { s.lines with cs := .low, rs := .high, wr := .high, d := args.getLastD opcode }
        latches := { s.latches with opc := opcode, argi := args.length }
        ev := s.ev ++ ([.pin .cs .low, .pin .rs .low] ++ busWriteEvents s.cfg opcode ++ [.pin .rs .high] ++
          args.flatMap (busWriteEvents s.cfg))
        tx := s.tx ++ { rs := .low, byte := opcode } :: args.map fun b => { rs := .high, byte := b }
        lastCmd := some opcode }

/-- 43_addressing_pixel.md R150: SETWIN, any four coordinates; two frames, column range first, big-endian. -/
def Obligations.SetwinSendsTwoRangeFrames : Prop :=
  (∀ r : HostReq, r.op = 4 → decodeRequest r = .ok (.setwin r.x0 r.y0 r.x1 r.y1)) ∧
  ∀ (x0 y0 x1 y1 : Half) (s : State), s.ready →
    exec (.setwin x0 y0 x1 y1) s = .next
      { s with
        lines := { s.lines with cs := .low, rs := .high, wr := .high, d := lo8 y1 }
        latches :=
          { s.latches with opc := s.cfg.pasetOp, argi := 4, x0 := x0, y0 := y0, x1 := x1, y1 := y1 }
        ev := s.ev ++ frameEvents s.cfg s.cfg.casetOp [hi8 x0, lo8 x0, hi8 x1, lo8 x1] ++
          frameEvents s.cfg s.cfg.pasetOp [hi8 y0, lo8 y0, hi8 y1, lo8 y1]
        tx := s.tx ++ [cmdXfer s.cfg.casetOp, dataXfer (hi8 x0), dataXfer (lo8 x0), dataXfer (hi8 x1), dataXfer (lo8 x1),
          cmdXfer s.cfg.pasetOp, dataXfer (hi8 y0), dataXfer (lo8 y0), dataXfer (hi8 y1), dataXfer (lo8 y1)]
        lastCmd := some s.cfg.pasetOp }

/-- 43_addressing_pixel.md R153: WRPIX, any coordinates, colour and span; the three frames in their order (R159). -/
def Obligations.WrpixSendsWindowThenColour : Prop :=
  (∀ r : HostReq, r.op = 5 → decodeRequest r = .ok (.wrpix r.x r.y r.color)) ∧
  ∀ (x y color x1 y1 : Half) (s : State), s.ready →
    x1.toNat = (x.toNat + s.cfg.pixW) % 65536 → y1.toNat = (y.toNat + s.cfg.pixH) % 65536 →
    exec (.wrpix x y color) s = .next
      { s with
        lines := { s.lines with cs := .low, rs := .high, wr := .high, d := lo8 color }
        latches :=
          { s.latches with
            opc := s.cfg.ramwrOp, argi := 2, x0 := x, y0 := y, x1 := x1, y1 := y1, color := color }
        ev := s.ev ++ frameEvents s.cfg s.cfg.casetOp [hi8 x, lo8 x, hi8 x1, lo8 x1] ++
          frameEvents s.cfg s.cfg.pasetOp [hi8 y, lo8 y, hi8 y1, lo8 y1] ++
          frameEvents s.cfg s.cfg.ramwrOp [hi8 color, lo8 color]
        tx := s.tx ++ [cmdXfer s.cfg.casetOp, dataXfer (hi8 x), dataXfer (lo8 x), dataXfer (hi8 x1), dataXfer (lo8 x1),
          cmdXfer s.cfg.pasetOp, dataXfer (hi8 y), dataXfer (lo8 y), dataXfer (hi8 y1), dataXfer (lo8 y1),
          cmdXfer s.cfg.ramwrOp, dataXfer (hi8 color), dataXfer (lo8 color)]
        lastCmd := some s.cfg.ramwrOp }

/-- 44_panel_reset.md R165: RSTP, its result and its frame. That `LASTCMD` goes is R166. -/
def Obligations.RstpPulsesReset : Prop :=
  (∀ r : HostReq, r.op = 6 → decodeRequest r = .ok .rstp) ∧
  ∀ s : State, s.ready →
    exec .rstp s = .next
      { s with
        lines := { s.lines with rst := .high }
        ev := s.ev ++ [.pin .rst .low, .delay s.cfg.tRstLow, .pin .rst .high, .delay s.cfg.tRstHigh]
        lastCmd := none }

/-- 42_init_table.md R125: INIT starts the interpreter at `base`, any natural number; no line changes, nothing is read;
the records follow as steps of their own (the model's choice, notes/assumptions/6.md). -/
def Obligations.InitStartsInterpreter : Prop :=
  (∀ r : HostReq, r.op = 3 → decodeRequest r = .ok (.init r.base)) ∧
  ∀ (base : Nat) (s : State), s.ready →
    exec (.init base) s = .next { s with phase := .run, cur := base, istate := .sOpc }

/-- 42_init_table.md R136: ENT: its bytes; with a record that lies in the table one full frame, no delay, `DLY <- 0`,
the cursor `2 + n` further, `2 + n` reads; else the bounds fault. -/
def Obligations.EntSendsFrame : Prop :=
  (∀ (op : Byte) (args rest : List Byte), op ≠ 0x00#8 → args.length ≤ 127 →
    decodeRecord (op :: BitVec.ofNat 8 args.length :: (args ++ rest)) = .ok (.ent op args, rest)) ∧
  (∀ (op : Byte) (args : List Byte) (s : State), s.recordDue → op ≠ 0x00#8 → args.length ≤ 127 →
    s.tableLen < s.cur + 2 + args.length →
    ∃ t, exec (.ent op args) s = .next t ∧ t.phase = .faulted ∧ t.fcause = 1) ∧
  ∀ (op : Byte) (args : List Byte) (s : State), s.recordDue → op ≠ 0x00#8 → args.length ≤ 127 →
    s.cur + 2 + args.length ≤ s.tableLen →
    exec (.ent op args) s = .next
      { s with
        lines := { s.lines with cs := .low, rs := .high, wr := .high, d := args.getLastD op }
        latches :=
          { s.latches with
            opc := op, len := BitVec.ofNat 8 args.length, cnt := BitVec.ofNat 7 args.length, argi := args.length }
        cur := s.cur + 2 + args.length
        dly := false
        ev := s.ev ++ frameEvents s.cfg op args
        tx := s.tx ++ frameXfers op args
        rdLog := s.rdLog ++ List.range' s.cur (2 + args.length)
        lastCmd := some op }

/-- 42_init_table.md R137, R131: ENTD, as ENT with `d = 1` and then `Delay(T_SETTLE)`. -/
def Obligations.EntdSendsFrameThenSettles : Prop :=
  (∀ (op : Byte) (args rest : List Byte), op ≠ 0x00#8 → args.length ≤ 127 →
    decodeRecord (op :: (0x80 ||| BitVec.ofNat 8 args.length) :: (args ++ rest)) = .ok (.entd op args, rest)) ∧
  (∀ (op : Byte) (args : List Byte) (s : State), s.recordDue → op ≠ 0x00#8 → args.length ≤ 127 →
    s.tableLen < s.cur + 2 + args.length →
    ∃ t, exec (.entd op args) s = .next t ∧ t.phase = .faulted ∧ t.fcause = 1) ∧
  ∀ (op : Byte) (args : List Byte) (s : State), s.recordDue → op ≠ 0x00#8 → args.length ≤ 127 →
    s.cur + 2 + args.length ≤ s.tableLen →
    exec (.entd op args) s = .next
      { s with
        lines := { s.lines with cs := .low, rs := .high, wr := .high, d := args.getLastD op }
        latches :=
          { s.latches with
            opc := op, len := 0x80 ||| BitVec.ofNat 8 args.length, cnt := BitVec.ofNat 7 args.length,
            argi := args.length }
        cur := s.cur + 2 + args.length
        dly := true
        ev := s.ev ++ frameEvents s.cfg op args ++ [.delay s.cfg.tSettle]
        tx := s.tx ++ frameXfers op args
        rdLog := s.rdLog ++ List.range' s.cur (2 + args.length)
        lastCmd := some op }

/-- 42_init_table.md R132, R138: END; one read, no line change, no event; `CUR` stays at the sentinel. -/
def Obligations.EndHalts : Prop :=
  (∀ rest : List Byte, decodeRecord (0x00#8 :: rest) = .ok (.endRec, rest)) ∧
  ∀ s : State, s.recordDue → s.cur < s.tableLen →
    exec .endRec s = .next
      { s with
        phase := .idle
        istate := .sHalt
        latches := { s.latches with opc := 0x00#8 }
        rdLog := s.rdLog ++ [s.cur] }

/-- R136, R137, R135: where ENT and ENTD trap: a record that runs past `TABLE_LEN` sends nothing and raises
`TableBounds` with the first index that could not be read (exec is given the operands, notes/assumptions/24.md). -/
def Obligations.RecordPastTableEndTraps : Prop :=
  ∀ (op : Byte) (args : List Byte) (i : Instr) (s : State), (i = .ent op args ∨ i = .entd op args) →
    s.recordDue → op ≠ 0x00#8 → args.length ≤ 127 → s.tableLen < s.cur + 2 + args.length →
    ∃ t, exec i s = .next t ∧ t.phase = .faulted ∧ t.fcause = 1 ∧ t.faddr = max s.cur s.tableLen ∧
      t.ev = s.ev ++ [.fault .tableBounds (max s.cur s.tableLen)] ∧ t.lines = s.lines ∧ t.tx = s.tx ∧
      t.lastCmd = s.lastCmd ∧ t.rdLog = s.rdLog ++ List.range' s.cur (min 2 (s.tableLen - s.cur))

/-! ## Counts -/

/-- R107, R118, R158: events, transactions, table reads, least duration and frames (a frame is counted by its one write of
`CS`) of BUSWR, CMD, FRAME, SETWIN and WRPIX. -/
def Obligations.RequestCounts : Prop :=
  ∀ (i : Instr) (s : State) (events xfers pulses frames : Nat), s.ready →
    (∃ v, i = .buswr v ∧ events = 5 ∧ xfers = (if s.lines.cs = .low then 1 else 0) ∧ pulses = 1 ∧ frames = 0) ∨
    (∃ opcode, i = .cmd opcode ∧ events = 7 ∧ xfers = 1 ∧ pulses = 1 ∧ frames = 1) ∨
    (∃ opcode args, i = .frame opcode args ∧ events = 8 + 5 * args.length ∧ xfers = args.length + 1 ∧
      pulses = args.length + 1 ∧ frames = 1) ∨
    (∃ x0 y0 x1 y1, i = .setwin x0 y0 x1 y1 ∧ events = 56 ∧ xfers = 10 ∧ pulses = 10 ∧ frames = 2) ∨
    (∃ x y color, i = .wrpix x y color ∧ events = 74 ∧ xfers = 13 ∧ pulses = 13 ∧ frames = 3) →
    ∃ t ev tx, exec i s = .next t ∧ t.ev = s.ev ++ ev ∧ ev.length = events ∧ t.tx = s.tx ++ tx ∧ tx.length = xfers ∧
      t.rdLog = s.rdLog ∧ leastDuration ev = pulses * (s.cfg.tWrLow + s.cfg.tWrHigh) ∧ pinWrites .cs ev = frames

/-- R141: events, transactions, frames, bytes (each read once, R133) and least duration of a table with these records. -/
def Obligations.TableCounts : Prop :=
  ∀ (c : Config) (records : List Instr), (∀ i ∈ records, isEntry i = true ∧ i.wf = true) →
    (records.flatMap (recordEvents c)).length = (records.map fun i => 8 + 5 * argCount i + delayBit i).sum ∧
    (records.flatMap recordXfers).length = (records.map fun i => argCount i + 1).sum ∧
    pinWrites .cs (records.flatMap (recordEvents c)) = records.length ∧
    (tableBytes records).length = (records.map fun i => 2 + argCount i).sum + 1 ∧
    leastDuration (records.flatMap (recordEvents c)) =
      (records.map fun i => (argCount i + 1) * (c.tWrLow + c.tWrHigh) + delayBit i * c.tSettle).sum

/-- R117: in the events of a full frame `RS` is written exactly twice, to 0 then to 1, and the write of 1 stands right
after the opcode transaction and before the first argument; in those of a command-only frame once, to 0. -/
def Obligations.RegisterSelectChangesOnce : Prop :=
  ∀ (opcode : Byte) (s t : State),
    (exec (.cmd opcode) s = .next t →
      ∃ after, t.ev = s.ev ++ .pin .cs .low :: .pin .rs .low :: after ∧ pinWrites .rs after = 0) ∧
    ∀ args, exec (.frame opcode args) s = .next t →
      ∃ before after, t.ev = s.ev ++ (before ++ .pin .rs .high :: after) ∧
        before = [.pin .cs .low, .pin .rs .low] ++ busWriteEvents s.cfg opcode ∧
        pinWrites .rs before = 1 ∧ pinWrites .rs after = 0 ∧ pinWrites .cs after = 0

/-- R116: a frame with N arguments makes exactly N + 1 transactions, the first at the command level, the others at the
data level, the bytes in their order. For the controller (R35), whatever it has seen before, they are one register
write. -/
def Obligations.FrameTransactions : Prop :=
  ∀ (opcode : Byte) (args : List Byte) (s t : State), exec (.frame opcode args) s = .next t →
    ∃ ev tx, t.ev = s.ev ++ ev ∧ t.tx = s.tx ++ tx ∧ tx.length = args.length + 1 ∧ tx.map Xfer.byte = opcode :: args ∧
      (∀ k : Nat, k < tx.length → (tx[k]?).map Xfer.rs = some (if k = 0 then .low else .high)) ∧
      ∀ writes, s.busView.writesAfter writes ev = writes ++ [(opcode, args)]

/-- R113: a full frame without arguments against a command-only frame of the same opcode: the same transactions, one
more event, `Pin(RS,1)`, and `RS` left at 1 instead of 0. -/
def Obligations.ZeroArgumentFrameAgainstCmd : Prop :=
  ∀ (opcode : Byte) (s : State), s.ready →
    ∃ t u, exec (.frame opcode []) s = .next t ∧ exec (.cmd opcode) s = .next u ∧
      t.tx = s.tx ++ [cmdXfer opcode] ∧ u.tx = t.tx ∧
      t.ev = s.ev ++ ([.pin .cs .low, .pin .rs .low] ++ busWriteEvents s.cfg opcode ++ [.pin .rs .high]) ∧
      t.ev = u.ev ++ [.pin .rs .high] ∧ t.ev.length = s.ev.length + 8 ∧
      t.lines.rs = .high ∧ u.lines.rs = .low

/-! ## The step -/

/-- 60_exceptions.md R186, R187: when the engine is ready and the host leaves it the step, a request at the port that
decodes to `i` is taken from the port and `i` executed. -/
def Obligations.StepExecutesAcceptedRequest : Prop :=
  ∀ (s : State) (r : HostReq) (i : Instr), s.host = [] → s.ready → s.port = some r → decodeRequest r = .ok i →
    step s = exec i { s with port := none }

/-- R127 to R129: while an INIT runs, the record whose bytes lie at the cursor is executed. -/
def Obligations.StepExecutesRecordAtCursor : Prop :=
  ∀ (s : State) (i : Instr) (rest : List Byte), s.host = [] → s.recordDue →
    decodeRecord s.remaining = .ok (i, rest) → step s = exec i s

/-- R186, R188, R217: the host's own actions as steps (their order is the model's, notes/assumptions/7.md). A request goes
to the free port; at an occupied port the next one waits while the engine takes its step; a pause leaves the engine its
step; filling the table makes `TABLE` the bytes given
and `TABLE_LEN` their number (the model's choice, notes/assumptions/25.md). -/
def Obligations.HostActions : Prop :=
  ∀ (s : State) (rest : List HostAct),
    (∀ r, s.host = .present r :: rest → s.port = none → step s = .next { s with host := rest, port := some r }) ∧
    (∀ r q t, s.host = .present r :: rest → s.port = some q → step { s with host := [] } = .next t →
      step s = .next { t with host := .present r :: rest }) ∧
    (∀ t, s.host = .pause :: rest → step { s with host := [] } = .next t → step s = .next { t with host := rest }) ∧
    ∀ bytes, s.host = .fillTable bytes :: rest →
      ∃ t, step s = .next t ∧ t = { s with host := rest, table := t.table, tableLen := bytes.length } ∧
        t.table.bytes 0 bytes.length = bytes

/-- 70_reset_and_hazards.md R195, 10_state.md R37: engine reset, in any phase, gives every piece of state its reset
value in one step; what R37 leaves unspecified is not named. That the parameters, the table, the request at the port and
the host's further actions stay is the model's reading (DEDUCED, notes/assumptions/13.md) of R36, which counts table,
parameters and requests to what is not state, and of R188, by which a request is never dropped. -/
def Obligations.EngineResetRestoresResetValues : Prop :=
  ∀ (s : State) (rest : List HostAct), s.host = .engineReset :: rest →
    ∃ t, step s = .next t ∧
      t.lines = { rst := .high, cs := .high, rs := .high, wr := .high, rd := .high, d := s.cfg.dataReset } ∧
      t.phase = .idle ∧ t.status = 0 ∧ t.fcause = 0 ∧ t.faddr = 0 ∧ t.ev = [] ∧ t.tx = [] ∧ t.rdLog = [] ∧
      t.lastCmd = none ∧ t.cfg = s.cfg ∧ t.table = s.table ∧ t.tableLen = s.tableLen ∧ t.port = s.port ∧ t.host = rest

/-- R37: the values of the table of reset values, in the model's reset state. -/
def Obligations.ResetStateValues : Prop :=
  State.reset.lines.cs = .high ∧ State.reset.lines.rs = .high ∧ State.reset.lines.wr = .high ∧
  State.reset.lines.rd = .high ∧ State.reset.lines.rst = .high ∧
  State.reset.lines.d = State.reset.cfg.dataReset ∧ State.reset.phase = .idle ∧ State.reset.status = 0 ∧
  State.reset.fcause = 0 ∧ State.reset.faddr = 0 ∧ State.reset.ev = [] ∧ State.reset.tx = [] ∧
  State.reset.rdLog = [] ∧ State.reset.lastCmd = none

/-- R31: the two bits of `STATUS` follow `PHASE`. -/
def Obligations.StatusFollowsPhase : Prop :=
  ∀ s : State, (s.status.getLsbD 0 = true ↔ s.phase = .run) ∧ (s.status.getLsbD 1 = true ↔ s.phase = .faulted)

/-- R31, R186: an idle engine with no request does nothing; that this is a step is the model's choice
(notes/assumptions/8.md). -/
def Obligations.IdleEngineWaits : Prop :=
  ∀ s : State, s.host = [] → s.ready → s.port = none → step s = .next s

/-- R188, R29, R126: the stop of a meaning asked for out of turn, which the spec gives no step: a host request when the
engine is not ready, a table record when none is due (the names are the model's, notes/assumptions/9.md). -/
def Obligations.OutOfTurnStops : Prop :=
  ∀ (i : Instr) (s : State),
    (i.isRequest = true → ¬ s.ready → exec i s = .fault .notReady) ∧
    (i.isRequest = false → ¬ s.recordDue → exec i s = .fault .noRecordDue)

/-- R188: a request presented while the engine is not ready is not accepted and never dropped: it stays at the port. -/
def Obligations.UnreadyEngineKeepsRequest : Prop :=
  ∀ (s t : State) (r : HostReq), ¬ s.ready → s.port = some r → step s = .next t → t.port = some r

/-! ## Faults -/

/-- 60_exceptions.md R173: a request with `op = 7` is accepted, performs no primitive and takes `ReservedOp`. -/
def Obligations.ReservedOpTaken : Prop :=
  ∀ (s : State) (r : HostReq), s.host = [] → s.ready → s.port = some r → r.op = 7 →
    step s = .next
      { s with
        port := none
        phase := .faulted
        fcause := 2
        faddr := 7
        ev := s.ev ++ [.fault .reservedOp 7] }

/-- 42_init_table.md R135: the three shapes of the bounds fault at the step: no opcode byte (`CUR >= TABLE_LEN`), no
length byte, too few argument bytes. Nothing is sent, what could be read is read, and the fault names the first index
that could not be read. -/
def Obligations.TableBoundsTaken : Prop :=
  ∀ s : State, s.host = [] → s.recordDue →
    (s.tableLen ≤ s.cur →
      step s = .next
        { s with phase := .faulted, fcause := 1, faddr := s.cur, ev := s.ev ++ [.fault .tableBounds s.cur] }) ∧
    (∀ op, op ≠ 0x00#8 → s.remaining = [op] →
      step s = .next
        { s with
          phase := .faulted
          fcause := 1
          faddr := s.cur + 1
          cur := s.cur + 1
          istate := .sLen
          latches := { s.latches with opc := op }
          rdLog := s.rdLog ++ [s.cur]
          ev := s.ev ++ [.fault .tableBounds (s.cur + 1)] }) ∧
    ∀ op l more, op ≠ 0x00#8 → s.remaining = op :: l :: more → more.length < (l &&& 0x7F).toNat →
      step s = .next
        { s with
          phase := .faulted
          fcause := 1
          faddr := s.tableLen
          cur := s.cur + 2
          istate := .sArg
          dly := lengthDelay l
          latches := { s.latches with opc := op, len := l, cnt := lengthCount l }
          rdLog := s.rdLog ++ [s.cur, s.cur + 1]
          ev := s.ev ++ [.fault .tableBounds s.tableLen] }

/-- R175: fault entry in one step: the event, `FCAUSE`, `FADDR`, `PHASE`, and nothing else; no line is written. -/
def Obligations.FaultEntry : Prop :=
  ∀ (s : State) (c : Cause) (info : Nat),
    s.raise c info =
      { s with
        ev := s.ev ++ [.fault c info]
        fcause := match c with
          | .tableBounds => 1
          | .reservedOp => 2
        faddr := info
        phase := .faulted } ∧
    (s.raise c info).faultBit = true ∧ (s.raise c info).busy = false

/-- R176: in FAULTED, without engine reset, a step changes nothing but what the host itself does to the port and the
table; engine reset returns the engine to IDLE. That a faulted engine has a step at all, which R188 does not give it, and
the list of host actions that may come first are the model's choices (DESIGN CHOICE, notes/assumptions/8.md, 7.md). -/
def Obligations.FaultedIsLeftByResetOnly : Prop :=
  ∀ s : State, s.phase = .faulted →
    ((∀ rest, s.host ≠ .engineReset :: rest) →
      ∃ t, step s = .next t ∧ t = { s with port := t.port, host := t.host, table := t.table, tableLen := t.tableLen }) ∧
    ∀ rest, s.host = .engineReset :: rest → ∃ t, step s = .next t ∧ t.phase = .idle ∧ t.fcause = 0 ∧ t.faddr = 0

/-- R176, R188: a faulted engine whose host does nothing more stays as it is for ever, the request at its port waiting.
That this waiting is steps is the model's choice: R188 gives the request no step (DESIGN CHOICE, notes/assumptions/8.md).
-/
def Obligations.FaultedForEver : Prop :=
  ∀ (n : Nat) (s : State), s.phase = .faulted → s.host = [] → Host.Core.run Sys2Proof.core n s = .next s

/-- R170: BUSWR, CMD, FRAME, SETWIN, WRPIX and RSTP raise nothing: a ready engine performs each to its end, for any
operands, and is ready again with the status unchanged. -/
def Obligations.RequestsRaiseNothing : Prop :=
  ∀ (i : Instr) (s : State), i.isRequest = true → (∀ base, i ≠ .init base) → s.ready →
    ∃ t, exec i s = .next t ∧ t.ready ∧ t.fcause = s.fcause ∧ t.faddr = s.faddr ∧ t.status = s.status

/-! ## INIT over a whole table -/

/-- R132, R133, R141, R142: INIT on a table of well-formed records with its terminator: every record's frame and settle
delay in order, each byte from `base` to the sentinel read once in order, the engine idle, the cursor on the sentinel;
no line touched if there is no record, and else `CS = 0`, `RS = 1`, `WR = 1` and the last byte sent on the data lines.
That this takes `records.length + 2` steps is the model's choice of step (notes/assumptions/6.md). -/
def Obligations.InitPerformsWholeTable : Prop :=
  ∀ (s : State) (r : HostReq) (records : List Instr),
    s.host = [] → s.ready → s.port = some r → r.op = 3 →
    (∀ i ∈ records, isEntry i = true ∧ i.wf = true) →
    r.base + (tableBytes records).length ≤ s.tableLen →
    s.table.bytes r.base (tableBytes records).length = tableBytes records →
    ∃ t, Host.Core.run Sys2Proof.core (records.length + 2) s = .next t ∧
      t.phase = .idle ∧ t.istate = .sHalt ∧ t.cur = r.base + (records.flatMap recordBytes).length ∧
      t.ev = s.ev ++ records.flatMap (recordEvents s.cfg) ∧
      t.tx = s.tx ++ records.flatMap recordXfers ∧
      t.rdLog = s.rdLog ++ List.range' r.base (tableBytes records).length ∧
      (records = [] → t.lines = s.lines) ∧
      (records ≠ [] → t.lines = { s.lines with cs := .low, rs := .high, wr := .high, d := t.lines.d } ∧
        t.tx.getLast?.map Xfer.byte = some t.lines.d) ∧
      t.fcause = s.fcause ∧ t.faddr = s.faddr ∧ t.port = none ∧ t.host = [] ∧ t.cfg = s.cfg ∧
      t.table = s.table ∧ t.tableLen = s.tableLen

/-- R135, R172: INIT on a table that the end of `TABLE` cuts short, `base` at or past that end included: every complete
record is performed in full, the record cut short sends nothing, and `TableBounds` is taken with the first index not
readable, `TABLE_LEN` or a `base` beyond it. The lines stay as the last complete record left them, untouched if there is
none. The number of steps is the model's choice (notes/assumptions/6.md). -/
def Obligations.InitOnCutTableFaultsPrecisely : Prop :=
  ∀ (s : State) (r : HostReq) (records : List Instr) (tail : List Byte) (e : DecodeError),
    s.host = [] → s.ready → s.port = some r → r.op = 3 →
    (∀ i ∈ records, isEntry i = true ∧ i.wf = true) →
    s.table.bytes r.base (s.tableLen - r.base) = records.flatMap recordBytes ++ tail →
    decodeRecord tail = .error e →
    ∃ t, Host.Core.run Sys2Proof.core (records.length + 2) s = .next t ∧
      t.phase = .faulted ∧ t.fcause = 1 ∧ t.faddr = max r.base s.tableLen ∧
      t.ev = s.ev ++ records.flatMap (recordEvents s.cfg) ++ [.fault .tableBounds (max r.base s.tableLen)] ∧
      t.tx = s.tx ++ records.flatMap recordXfers ∧
      t.rdLog = s.rdLog ++ List.range' r.base ((records.flatMap recordBytes).length + min 2 tail.length) ∧
      (records = [] → t.lines = s.lines) ∧
      (records ≠ [] → t.lines = { s.lines with cs := .low, rs := .high, wr := .high, d := t.lines.d } ∧
        t.tx.getLast?.map Xfer.byte = some t.lines.d) ∧
      t.port = none ∧ t.host = [] ∧ t.cfg = s.cfg ∧ t.table = s.table ∧ t.tableLen = s.tableLen

/-- R134: on a well-formed table INIT never faults and always halts, within a bound given by the table's length (in steps
of the model, notes/assumptions/6.md). -/
def Obligations.InitOnWellFormedTableHalts : Prop :=
  ∀ (s : State) (r : HostReq), s.host = [] → s.ready → s.port = some r → r.op = 3 →
    s.tableWellFormed r.base = true →
    ∃ n t, n ≤ s.tableLen + 2 ∧ Host.Core.run Sys2Proof.core n s = .next t ∧ t.phase = .idle ∧ t.fcause = s.fcause ∧
      t.port = none

/-! ## Whole-machine rules -/

/-- The invariant of Safety.lean holds in the reset state (the table's form is the model's own, notes/assumptions/1.md). -/
def Obligations.InvariantAtReset : Prop := State.reset.Inv

/-- The invariant of Safety.lean is kept by every step: the strobe and the read strobe idle high, the controller is out
of reset, the status registers agree with `PHASE`, the table stays in canonical form, and the lines, `TX` and `LASTCMD`
are what the event trace says (R24, R25, R31, R34, R105, R126). -/
def Obligations.InvariantKept : Prop := ∀ s t : State, s.Inv → step s = .next t → t.Inv

/-- R11, R125 to R129, R132, R135: every state has a step, and a running interpreter does in it what the state it is in
says, wherever it is found: what is left of a record is the same whether the record is taken whole or from the middle.
That an IDLE engine without a request and a FAULTED engine have a next state is the model's choice, for R188 says that
a request waiting there has no step (DESIGN CHOICE, notes/assumptions/8.md). -/
def Obligations.StepInEveryState : Prop :=
  ∀ s : State, (∃ t, step s = .next t) ∧
    (s.host = [] → s.phase = .run →
      (∀ op more, s.istate = .sOpc → s.remaining = op :: more →
        step s = step
          { s with
            rdLog := s.rdLog ++ [s.cur]
            latches := { s.latches with opc := op }
            cur := if op = 0x00#8 then s.cur else s.cur + 1
            istate := if op = 0x00#8 then .sHalt else .sLen }) ∧
      (∀ l more, s.istate = .sLen → s.remaining = l :: more →
        step s = step
          { s with
            rdLog := s.rdLog ++ [s.cur]
            latches := { s.latches with len := l, cnt := BitVec.ofNat 7 (l &&& 0x7F).toNat }
            dly := decide (l >>> 7 = 1)
            cur := s.cur + 1
            istate := .sArg }) ∧
      (s.istate = .sArg → s.cur + s.latches.cnt.toNat ≤ s.tableLen →
        ∃ t, step s = .next t ∧ t.phase = .run ∧ t.istate = .sOpc ∧ t.cur = s.cur + s.latches.cnt.toNat ∧
          t.rdLog = s.rdLog ++ List.range' s.cur s.latches.cnt.toNat ∧
          t.tx = s.tx ++ frameXfers s.latches.opc (s.remaining.take s.latches.cnt.toNat) ∧
          t.ev = s.ev ++ frameEvents s.cfg s.latches.opc (s.remaining.take s.latches.cnt.toNat) ++
            (if s.dly then [.delay s.cfg.tSettle] else [])) ∧
      (s.istate = .sLen → s.tableLen ≤ s.cur → step s = .next (s.raise .tableBounds s.cur)) ∧
      (s.istate = .sArg → s.tableLen < s.cur + s.latches.cnt.toNat →
        step s = .next (s.raise .tableBounds s.tableLen)) ∧
      (s.istate = .sHalt → step s = .next { s with phase := .idle }))

/-- R22, R112: chip-select stays asserted: no step but engine reset raises `CS`. -/
def Obligations.ChipSelectNeverDeasserted : Prop :=
  ∀ s t : State, step s = .next t → s.lines.cs = .low → (∀ rest, s.host ≠ .engineReset :: rest) → t.lines.cs = .low

/-- R25, R26: no instruction writes `RD`, and none but RSTP writes `RST`, neither as a level nor as an event. -/
def Obligations.ReadStrobeNeverWritten : Prop :=
  ∀ (i : Instr) (s t : State), exec i s = .next t →
    t.lines.rd = s.lines.rd ∧ pinWrites .rd t.ev = pinWrites .rd s.ev ∧
    (i ≠ .rstp → t.lines.rst = s.lines.rst ∧ pinWrites .rst t.ev = pinWrites .rst s.ev)

/-- R33, R36: no step changes a parameter of the configuration; what the host may do to `TABLE` and, by the model's choice
(notes/assumptions/25.md), to `TABLE_LEN` is HostActions and EngineNeverWritesTable. -/
def Obligations.ParametersNeverChange : Prop := ∀ s t : State, step s = .next t → t.cfg = s.cfg

/-- 20_memory.md R51: the engine has no way to write the table: every byte reads as before, and only the host's filling
of the table changes it. -/
def Obligations.EngineNeverWritesTable : Prop :=
  ∀ s t : State,
    (∀ i, exec i s = .next t → t.tableLen = s.tableLen ∧ ∀ a, t.table.read a = s.table.read a) ∧
    ((∀ bytes rest, s.host ≠ .fillTable bytes :: rest) → step s = .next t → t.table = s.table ∧ t.tableLen = s.tableLen)

/-- R52: no table byte at or beyond `TABLE_LEN` is read: what a step adds to the read log are indices in rising order
from the cursor, all below `TABLE_LEN`, and only while an INIT runs. -/
def Obligations.ReadsStayInTable : Prop :=
  ∀ s t : State, step s = .next t → (∀ rest, s.host ≠ .engineReset :: rest) →
    ∃ n, t.rdLog = s.rdLog ++ List.range' s.cur n ∧ (n ≠ 0 → s.phase = .run ∧ s.cur + n ≤ s.tableLen)

/-- R61: nothing performed is undone or reordered: every step but engine reset only appends to the traces. -/
def Obligations.TracesOnlyGrow : Prop :=
  ∀ s t : State, step s = .next t → (∀ rest, s.host ≠ .engineReset :: rest) →
    s.ev <+: t.ev ∧ s.tx <+: t.tx ∧ s.rdLog <+: t.rdLog

/-- R28, R37: every operation writes each latch it uses, and `DLY`, before it reads it: what they held before the step
makes no difference to it but in them (their reset values are the model's, notes/assumptions/4.md, 5.md). The premise
is part of the invariant that InvariantKept keeps: between steps a running interpreter stands at an opcode position
(R126), not in the middle of a record whose opcode and length it has taken. -/
def Obligations.LatchesNotReadBeforeWritten : Prop :=
  ∀ (s t : State) (l : Latches) (dly : Bool), (s.phase = .run → s.istate = .sOpc) → step s = .next t →
    ∃ l' dly', step { s with latches := l, dly := dly } = .next { t with latches := l', dly := dly' }

/-- R38: only the line levels persist from one operation to the next: in IDLE, what the latches, `CUR`, `ISTATE` and `DLY`
hold makes no difference to a step but in them, and where the step starts an INIT nothing is left of them in `CUR` and
`ISTATE` (their values in IDLE are the model's, notes/assumptions/5.md). What is left of the latches and of `DLY` makes no
difference to the steps of that INIT: LatchesNotReadBeforeWritten. -/
def Obligations.OnlyLinesPersist : Prop :=
  ∀ (s t : State) (l : Latches) (cur : Nat) (ist : IState) (dly : Bool), s.ready → step s = .next t →
    ∃ l' cur' ist' dly', step { s with latches := l, cur := cur, istate := ist, dly := dly } =
      .next { t with latches := l', cur := cur', istate := ist', dly := dly' } ∧
      (t.phase = .run → cur' = t.cur ∧ ist' = t.istate)

/-- 20_memory.md R67, 10_state.md R35: the engine learns nothing of the controller: `TX` and `LASTCMD` make no difference
to a step but in them. -/
def Obligations.ControllerNeverObserved : Prop :=
  ∀ (s t : State) (tx : List Xfer) (lc : Option Byte), step s = .next t →
    ∃ tx' lc', step { s with tx := tx, lastCmd := lc } = .next { t with tx := tx', lastCmd := lc' }

/-- 40_bus_transaction.md R106 (b), 10_state.md R35, 43_addressing_pixel.md R157, 44_panel_reset.md R166: to the controller
a BUSWR data byte is a further argument of its most recent command, whatever sent that command. After WRPIX it joins the
memory-write command, behind the colour; after RSTP it goes to `TX` and, there being no command since the controller's
reset, to no register write. -/
def Obligations.BuswrJoinsMostRecentCommand : Prop :=
  (∀ (v c : Byte) (s : State), s.ready → s.lines.cs = .low → s.lines.rs = .high → s.lastCmd = some c →
    ∃ u ev, exec (.buswr v) s = .next u ∧ u.ev = s.ev ++ ev ∧ u.tx = s.tx ++ [dataXfer v] ∧ u.lastCmd = some c ∧
      ∀ writes, s.busView.writesAfter writes ev = addArgument v writes) ∧
  (∀ (x y color x1 y1 : Half) (v : Byte) (s t : State),
    x1.toNat = (x.toNat + s.cfg.pixW) % 65536 → y1.toNat = (y.toNat + s.cfg.pixH) % 65536 →
    exec (.wrpix x y color) s = .next t →
    ∃ u ev, exec (.buswr v) t = .next u ∧ u.ev = s.ev ++ ev ∧ u.tx = t.tx ++ [dataXfer v] ∧
      t.lastCmd = some s.cfg.ramwrOp ∧ u.lastCmd = some s.cfg.ramwrOp ∧
      ∀ writes, s.busView.writesAfter writes ev = writes ++
        [(s.cfg.casetOp, [hi8 x, lo8 x, hi8 x1, lo8 x1]), (s.cfg.pasetOp, [hi8 y, lo8 y, hi8 y1, lo8 y1]),
          (s.cfg.ramwrOp, [hi8 color, lo8 color, v])]) ∧
  ∀ (v : Byte) (s t : State), s.lines.cs = .low → s.lines.rs = .high → exec .rstp s = .next t →
    ∃ u ev, exec (.buswr v) t = .next u ∧ u.ev = s.ev ++ ev ∧ u.tx = s.tx ++ [dataXfer v] ∧ u.lastCmd = none ∧
      ∀ writes, s.busView.writesAfter writes ev = writes
end

