-- ==== Sys2Proof/Laws/State.lean ====
section
/-! SUPPORT. Laws/State.lean: what each named update of the state leaves in each field, and what each line write does. -/

namespace Sys2Proof.Machine

/-! ### `emit` -/

@[simp] theorem State.emit_lines (s : State) (e : Event) : (s.emit e).lines = s.lines := rfl
@[simp] theorem State.emit_latches (s : State) (e : Event) : (s.emit e).latches = s.latches := rfl
@[simp] theorem State.emit_cur (s : State) (e : Event) : (s.emit e).cur = s.cur := rfl
@[simp] theorem State.emit_istate (s : State) (e : Event) : (s.emit e).istate = s.istate := rfl
@[simp] theorem State.emit_dly (s : State) (e : Event) : (s.emit e).dly = s.dly := rfl
@[simp] theorem State.emit_phase (s : State) (e : Event) : (s.emit e).phase = s.phase := rfl
@[simp] theorem State.emit_fcause (s : State) (e : Event) : (s.emit e).fcause = s.fcause := rfl
@[simp] theorem State.emit_faddr (s : State) (e : Event) : (s.emit e).faddr = s.faddr := rfl
@[simp] theorem State.emit_ev (s : State) (e : Event) : (s.emit e).ev = s.ev ++ [e] := rfl
@[simp] theorem State.emit_tx (s : State) (e : Event) : (s.emit e).tx = s.tx := rfl
@[simp] theorem State.emit_rdLog (s : State) (e : Event) : (s.emit e).rdLog = s.rdLog := rfl
@[simp] theorem State.emit_lastCmd (s : State) (e : Event) : (s.emit e).lastCmd = s.lastCmd := rfl
@[simp] theorem State.emit_cfg (s : State) (e : Event) : (s.emit e).cfg = s.cfg := rfl
@[simp] theorem State.emit_table (s : State) (e : Event) : (s.emit e).table = s.table := rfl
@[simp] theorem State.emit_tableLen (s : State) (e : Event) : (s.emit e).tableLen = s.tableLen := rfl
@[simp] theorem State.emit_port (s : State) (e : Event) : (s.emit e).port = s.port := rfl
@[simp] theorem State.emit_host (s : State) (e : Event) : (s.emit e).host = s.host := rfl

/-! ### `controllerLatch` -/

@[simp] theorem State.controllerLatch_lines (s : State) : (s.controllerLatch).lines = s.lines := rfl
@[simp] theorem State.controllerLatch_latches (s : State) : (s.controllerLatch).latches = s.latches := rfl
@[simp] theorem State.controllerLatch_cur (s : State) : (s.controllerLatch).cur = s.cur := rfl
@[simp] theorem State.controllerLatch_istate (s : State) : (s.controllerLatch).istate = s.istate := rfl
@[simp] theorem State.controllerLatch_dly (s : State) : (s.controllerLatch).dly = s.dly := rfl
@[simp] theorem State.controllerLatch_phase (s : State) : (s.controllerLatch).phase = s.phase := rfl
@[simp] theorem State.controllerLatch_fcause (s : State) : (s.controllerLatch).fcause = s.fcause := rfl
@[simp] theorem State.controllerLatch_faddr (s : State) : (s.controllerLatch).faddr = s.faddr := rfl
@[simp] theorem State.controllerLatch_ev (s : State) : (s.controllerLatch).ev = s.ev := rfl
@[simp] theorem State.controllerLatch_tx (s : State) : (s.controllerLatch).tx = s.tx ++ [{ rs := s.lines.rs, byte := s.lines.d }] := rfl
@[simp] theorem State.controllerLatch_rdLog (s : State) : (s.controllerLatch).rdLog = s.rdLog := rfl
@[simp] theorem State.controllerLatch_lastCmd (s : State) : (s.controllerLatch).lastCmd = if s.lines.rs = .low then some s.lines.d else s.lastCmd := rfl
@[simp] theorem State.controllerLatch_cfg (s : State) : (s.controllerLatch).cfg = s.cfg := rfl
@[simp] theorem State.controllerLatch_table (s : State) : (s.controllerLatch).table = s.table := rfl
@[simp] theorem State.controllerLatch_tableLen (s : State) : (s.controllerLatch).tableLen = s.tableLen := rfl
@[simp] theorem State.controllerLatch_port (s : State) : (s.controllerLatch).port = s.port := rfl
@[simp] theorem State.controllerLatch_host (s : State) : (s.controllerLatch).host = s.host := rfl

/-! ### `controllerReset` -/

@[simp] theorem State.controllerReset_lines (s : State) : (s.controllerReset).lines = s.lines := rfl
@[simp] theorem State.controllerReset_latches (s : State) : (s.controllerReset).latches = s.latches := rfl
@[simp] theorem State.controllerReset_cur (s : State) : (s.controllerReset).cur = s.cur := rfl
@[simp] theorem State.controllerReset_istate (s : State) : (s.controllerReset).istate = s.istate := rfl
@[simp] theorem State.controllerReset_dly (s : State) : (s.controllerReset).dly = s.dly := rfl
@[simp] theorem State.controllerReset_phase (s : State) : (s.controllerReset).phase = s.phase := rfl
@[simp] theorem State.controllerReset_fcause (s : State) : (s.controllerReset).fcause = s.fcause := rfl
@[simp] theorem State.controllerReset_faddr (s : State) : (s.controllerReset).faddr = s.faddr := rfl
@[simp] theorem State.controllerReset_ev (s : State) : (s.controllerReset).ev = s.ev := rfl
@[simp] theorem State.controllerReset_tx (s : State) : (s.controllerReset).tx = s.tx := rfl
@[simp] theorem State.controllerReset_rdLog (s : State) : (s.controllerReset).rdLog = s.rdLog := rfl
@[simp] theorem State.controllerReset_lastCmd (s : State) : (s.controllerReset).lastCmd = none := rfl
@[simp] theorem State.controllerReset_cfg (s : State) : (s.controllerReset).cfg = s.cfg := rfl
@[simp] theorem State.controllerReset_table (s : State) : (s.controllerReset).table = s.table := rfl
@[simp] theorem State.controllerReset_tableLen (s : State) : (s.controllerReset).tableLen = s.tableLen := rfl
@[simp] theorem State.controllerReset_port (s : State) : (s.controllerReset).port = s.port := rfl
@[simp] theorem State.controllerReset_host (s : State) : (s.controllerReset).host = s.host := rfl

/-! ### `delay` -/

@[simp] theorem State.delay_lines (s : State) (n : Nat) : (s.delay n).lines = s.lines := rfl
@[simp] theorem State.delay_latches (s : State) (n : Nat) : (s.delay n).latches = s.latches := rfl
@[simp] theorem State.delay_cur (s : State) (n : Nat) : (s.delay n).cur = s.cur := rfl
@[simp] theorem State.delay_istate (s : State) (n : Nat) : (s.delay n).istate = s.istate := rfl
@[simp] theorem State.delay_dly (s : State) (n : Nat) : (s.delay n).dly = s.dly := rfl
@[simp] theorem State.delay_phase (s : State) (n : Nat) : (s.delay n).phase = s.phase := rfl
@[simp] theorem State.delay_fcause (s : State) (n : Nat) : (s.delay n).fcause = s.fcause := rfl
@[simp] theorem State.delay_faddr (s : State) (n : Nat) : (s.delay n).faddr = s.faddr := rfl
@[simp] theorem State.delay_ev (s : State) (n : Nat) : (s.delay n).ev = s.ev ++ [.delay n] := rfl
@[simp] theorem State.delay_tx (s : State) (n : Nat) : (s.delay n).tx = s.tx := rfl
@[simp] theorem State.delay_rdLog (s : State) (n : Nat) : (s.delay n).rdLog = s.rdLog := rfl
@[simp] theorem State.delay_lastCmd (s : State) (n : Nat) : (s.delay n).lastCmd = s.lastCmd := rfl
@[simp] theorem State.delay_cfg (s : State) (n : Nat) : (s.delay n).cfg = s.cfg := rfl
@[simp] theorem State.delay_table (s : State) (n : Nat) : (s.delay n).table = s.table := rfl
@[simp] theorem State.delay_tableLen (s : State) (n : Nat) : (s.delay n).tableLen = s.tableLen := rfl
@[simp] theorem State.delay_port (s : State) (n : Nat) : (s.delay n).port = s.port := rfl
@[simp] theorem State.delay_host (s : State) (n : Nat) : (s.delay n).host = s.host := rfl

/-! ### `portWrite` -/

@[simp] theorem State.portWrite_lines (s : State) (v : Byte) : (s.portWrite v).lines = { s.lines with d := v } := rfl
@[simp] theorem State.portWrite_latches (s : State) (v : Byte) : (s.portWrite v).latches = s.latches := rfl
@[simp] theorem State.portWrite_cur (s : State) (v : Byte) : (s.portWrite v).cur = s.cur := rfl
@[simp] theorem State.portWrite_istate (s : State) (v : Byte) : (s.portWrite v).istate = s.istate := rfl
@[simp] theorem State.portWrite_dly (s : State) (v : Byte) : (s.portWrite v).dly = s.dly := rfl
@[simp] theorem State.portWrite_phase (s : State) (v : Byte) : (s.portWrite v).phase = s.phase := rfl
@[simp] theorem State.portWrite_fcause (s : State) (v : Byte) : (s.portWrite v).fcause = s.fcause := rfl
@[simp] theorem State.portWrite_faddr (s : State) (v : Byte) : (s.portWrite v).faddr = s.faddr := rfl
@[simp] theorem State.portWrite_ev (s : State) (v : Byte) : (s.portWrite v).ev = s.ev ++ [.data v] := rfl
@[simp] theorem State.portWrite_tx (s : State) (v : Byte) : (s.portWrite v).tx = s.tx := rfl
@[simp] theorem State.portWrite_rdLog (s : State) (v : Byte) : (s.portWrite v).rdLog = s.rdLog := rfl
@[simp] theorem State.portWrite_lastCmd (s : State) (v : Byte) : (s.portWrite v).lastCmd = s.lastCmd := rfl
@[simp] theorem State.portWrite_cfg (s : State) (v : Byte) : (s.portWrite v).cfg = s.cfg := rfl
@[simp] theorem State.portWrite_table (s : State) (v : Byte) : (s.portWrite v).table = s.table := rfl
@[simp] theorem State.portWrite_tableLen (s : State) (v : Byte) : (s.portWrite v).tableLen = s.tableLen := rfl
@[simp] theorem State.portWrite_port (s : State) (v : Byte) : (s.portWrite v).port = s.port := rfl
@[simp] theorem State.portWrite_host (s : State) (v : Byte) : (s.portWrite v).host = s.host := rfl

/-! ### `logRead` -/

@[simp] theorem State.logRead_lines (s : State) (a : Nat) : (s.logRead a).lines = s.lines := rfl
@[simp] theorem State.logRead_latches (s : State) (a : Nat) : (s.logRead a).latches = s.latches := rfl
@[simp] theorem State.logRead_cur (s : State) (a : Nat) : (s.logRead a).cur = s.cur := rfl
@[simp] theorem State.logRead_istate (s : State) (a : Nat) : (s.logRead a).istate = s.istate := rfl
@[simp] theorem State.logRead_dly (s : State) (a : Nat) : (s.logRead a).dly = s.dly := rfl
@[simp] theorem State.logRead_phase (s : State) (a : Nat) : (s.logRead a).phase = s.phase := rfl
@[simp] theorem State.logRead_fcause (s : State) (a : Nat) : (s.logRead a).fcause = s.fcause := rfl
@[simp] theorem State.logRead_faddr (s : State) (a : Nat) : (s.logRead a).faddr = s.faddr := rfl
@[simp] theorem State.logRead_ev (s : State) (a : Nat) : (s.logRead a).ev = s.ev := rfl
@[simp] theorem State.logRead_tx (s : State) (a : Nat) : (s.logRead a).tx = s.tx := rfl
@[simp] theorem State.logRead_rdLog (s : State) (a : Nat) : (s.logRead a).rdLog = s.rdLog ++ [a] := rfl
@[simp] theorem State.logRead_lastCmd (s : State) (a : Nat) : (s.logRead a).lastCmd = s.lastCmd := rfl
@[simp] theorem State.logRead_cfg (s : State) (a : Nat) : (s.logRead a).cfg = s.cfg := rfl
@[simp] theorem State.logRead_table (s : State) (a : Nat) : (s.logRead a).table = s.table := rfl
@[simp] theorem State.logRead_tableLen (s : State) (a : Nat) : (s.logRead a).tableLen = s.tableLen := rfl
@[simp] theorem State.logRead_port (s : State) (a : Nat) : (s.logRead a).port = s.port := rfl
@[simp] theorem State.logRead_host (s : State) (a : Nat) : (s.logRead a).host = s.host := rfl

/-! ### `logReads` -/

@[simp] theorem State.logReads_lines (s : State) (a n : Nat) : (s.logReads a n).lines = s.lines := rfl
@[simp] theorem State.logReads_latches (s : State) (a n : Nat) : (s.logReads a n).latches = s.latches := rfl
@[simp] theorem State.logReads_cur (s : State) (a n : Nat) : (s.logReads a n).cur = s.cur := rfl
@[simp] theorem State.logReads_istate (s : State) (a n : Nat) : (s.logReads a n).istate = s.istate := rfl
@[simp] theorem State.logReads_dly (s : State) (a n : Nat) : (s.logReads a n).dly = s.dly := rfl
@[simp] theorem State.logReads_phase (s : State) (a n : Nat) : (s.logReads a n).phase = s.phase := rfl
@[simp] theorem State.logReads_fcause (s : State) (a n : Nat) : (s.logReads a n).fcause = s.fcause := rfl
@[simp] theorem State.logReads_faddr (s : State) (a n : Nat) : (s.logReads a n).faddr = s.faddr := rfl
@[simp] theorem State.logReads_ev (s : State) (a n : Nat) : (s.logReads a n).ev = s.ev := rfl
@[simp] theorem State.logReads_tx (s : State) (a n : Nat) : (s.logReads a n).tx = s.tx := rfl
@[simp] theorem State.logReads_rdLog (s : State) (a n : Nat) : (s.logReads a n).rdLog = s.rdLog ++ List.range' a n := rfl
@[simp] theorem State.logReads_lastCmd (s : State) (a n : Nat) : (s.logReads a n).lastCmd = s.lastCmd := rfl
@[simp] theorem State.logReads_cfg (s : State) (a n : Nat) : (s.logReads a n).cfg = s.cfg := rfl
@[simp] theorem State.logReads_table (s : State) (a n : Nat) : (s.logReads a n).table = s.table := rfl
@[simp] theorem State.logReads_tableLen (s : State) (a n : Nat) : (s.logReads a n).tableLen = s.tableLen := rfl
@[simp] theorem State.logReads_port (s : State) (a n : Nat) : (s.logReads a n).port = s.port := rfl
@[simp] theorem State.logReads_host (s : State) (a n : Nat) : (s.logReads a n).host = s.host := rfl

/-! ### `setOpc` -/

@[simp] theorem State.setOpc_lines (s : State) (v : Byte) : (s.setOpc v).lines = s.lines := rfl
@[simp] theorem State.setOpc_latches (s : State) (v : Byte) : (s.setOpc v).latches = { s.latches with opc := v } := rfl
@[simp] theorem State.setOpc_cur (s : State) (v : Byte) : (s.setOpc v).cur = s.cur := rfl
@[simp] theorem State.setOpc_istate (s : State) (v : Byte) : (s.setOpc v).istate = s.istate := rfl
@[simp] theorem State.setOpc_dly (s : State) (v : Byte) : (s.setOpc v).dly = s.dly := rfl
@[simp] theorem State.setOpc_phase (s : State) (v : Byte) : (s.setOpc v).phase = s.phase := rfl
@[simp] theorem State.setOpc_fcause (s : State) (v : Byte) : (s.setOpc v).fcause = s.fcause := rfl
@[simp] theorem State.setOpc_faddr (s : State) (v : Byte) : (s.setOpc v).faddr = s.faddr := rfl
@[simp] theorem State.setOpc_ev (s : State) (v : Byte) : (s.setOpc v).ev = s.ev := rfl
@[simp] theorem State.setOpc_tx (s : State) (v : Byte) : (s.setOpc v).tx = s.tx := rfl
@[simp] theorem State.setOpc_rdLog (s : State) (v : Byte) : (s.setOpc v).rdLog = s.rdLog := rfl
@[simp] theorem State.setOpc_lastCmd (s : State) (v : Byte) : (s.setOpc v).lastCmd = s.lastCmd := rfl
@[simp] theorem State.setOpc_cfg (s : State) (v : Byte) : (s.setOpc v).cfg = s.cfg := rfl
@[simp] theorem State.setOpc_table (s : State) (v : Byte) : (s.setOpc v).table = s.table := rfl
@[simp] theorem State.setOpc_tableLen (s : State) (v : Byte) : (s.setOpc v).tableLen = s.tableLen := rfl
@[simp] theorem State.setOpc_port (s : State) (v : Byte) : (s.setOpc v).port = s.port := rfl
@[simp] theorem State.setOpc_host (s : State) (v : Byte) : (s.setOpc v).host = s.host := rfl

/-! ### `setArgi` -/

@[simp] theorem State.setArgi_lines (s : State) (n : Nat) : (s.setArgi n).lines = s.lines := rfl
@[simp] theorem State.setArgi_latches (s : State) (n : Nat) : (s.setArgi n).latches = { s.latches with argi := n } := rfl
@[simp] theorem State.setArgi_cur (s : State) (n : Nat) : (s.setArgi n).cur = s.cur := rfl
@[simp] theorem State.setArgi_istate (s : State) (n : Nat) : (s.setArgi n).istate = s.istate := rfl
@[simp] theorem State.setArgi_dly (s : State) (n : Nat) : (s.setArgi n).dly = s.dly := rfl
@[simp] theorem State.setArgi_phase (s : State) (n : Nat) : (s.setArgi n).phase = s.phase := rfl
@[simp] theorem State.setArgi_fcause (s : State) (n : Nat) : (s.setArgi n).fcause = s.fcause := rfl
@[simp] theorem State.setArgi_faddr (s : State) (n : Nat) : (s.setArgi n).faddr = s.faddr := rfl
@[simp] theorem State.setArgi_ev (s : State) (n : Nat) : (s.setArgi n).ev = s.ev := rfl
@[simp] theorem State.setArgi_tx (s : State) (n : Nat) : (s.setArgi n).tx = s.tx := rfl
@[simp] theorem State.setArgi_rdLog (s : State) (n : Nat) : (s.setArgi n).rdLog = s.rdLog := rfl
@[simp] theorem State.setArgi_lastCmd (s : State) (n : Nat) : (s.setArgi n).lastCmd = s.lastCmd := rfl
@[simp] theorem State.setArgi_cfg (s : State) (n : Nat) : (s.setArgi n).cfg = s.cfg := rfl
@[simp] theorem State.setArgi_table (s : State) (n : Nat) : (s.setArgi n).table = s.table := rfl
@[simp] theorem State.setArgi_tableLen (s : State) (n : Nat) : (s.setArgi n).tableLen = s.tableLen := rfl
@[simp] theorem State.setArgi_port (s : State) (n : Nat) : (s.setArgi n).port = s.port := rfl
@[simp] theorem State.setArgi_host (s : State) (n : Nat) : (s.setArgi n).host = s.host := rfl

/-! ### `setColor` -/

@[simp] theorem State.setColor_lines (s : State) (v : Half) : (s.setColor v).lines = s.lines := rfl
@[simp] theorem State.setColor_latches (s : State) (v : Half) : (s.setColor v).latches = { s.latches with color := v } := rfl
@[simp] theorem State.setColor_cur (s : State) (v : Half) : (s.setColor v).cur = s.cur := rfl
@[simp] theorem State.setColor_istate (s : State) (v : Half) : (s.setColor v).istate = s.istate := rfl
@[simp] theorem State.setColor_dly (s : State) (v : Half) : (s.setColor v).dly = s.dly := rfl
@[simp] theorem State.setColor_phase (s : State) (v : Half) : (s.setColor v).phase = s.phase := rfl
@[simp] theorem State.setColor_fcause (s : State) (v : Half) : (s.setColor v).fcause = s.fcause := rfl
@[simp] theorem State.setColor_faddr (s : State) (v : Half) : (s.setColor v).faddr = s.faddr := rfl
@[simp] theorem State.setColor_ev (s : State) (v : Half) : (s.setColor v).ev = s.ev := rfl
@[simp] theorem State.setColor_tx (s : State) (v : Half) : (s.setColor v).tx = s.tx := rfl
@[simp] theorem State.setColor_rdLog (s : State) (v : Half) : (s.setColor v).rdLog = s.rdLog := rfl
@[simp] theorem State.setColor_lastCmd (s : State) (v : Half) : (s.setColor v).lastCmd = s.lastCmd := rfl
@[simp] theorem State.setColor_cfg (s : State) (v : Half) : (s.setColor v).cfg = s.cfg := rfl
@[simp] theorem State.setColor_table (s : State) (v : Half) : (s.setColor v).table = s.table := rfl
@[simp] theorem State.setColor_tableLen (s : State) (v : Half) : (s.setColor v).tableLen = s.tableLen := rfl
@[simp] theorem State.setColor_port (s : State) (v : Half) : (s.setColor v).port = s.port := rfl
@[simp] theorem State.setColor_host (s : State) (v : Half) : (s.setColor v).host = s.host := rfl

/-! ### `setWindow` -/

@[simp] theorem State.setWindow_lines (s : State) (x0 y0 x1 y1 : Half) : (s.setWindow x0 y0 x1 y1).lines = s.lines := rfl
@[simp] theorem State.setWindow_latches (s : State) (x0 y0 x1 y1 : Half) : (s.setWindow x0 y0 x1 y1).latches = { s.latches with x0 := x0, y0 := y0, x1 := x1, y1 := y1 } := rfl
@[simp] theorem State.setWindow_cur (s : State) (x0 y0 x1 y1 : Half) : (s.setWindow x0 y0 x1 y1).cur = s.cur := rfl
@[simp] theorem State.setWindow_istate (s : State) (x0 y0 x1 y1 : Half) : (s.setWindow x0 y0 x1 y1).istate = s.istate := rfl
@[simp] theorem State.setWindow_dly (s : State) (x0 y0 x1 y1 : Half) : (s.setWindow x0 y0 x1 y1).dly = s.dly := rfl
@[simp] theorem State.setWindow_phase (s : State) (x0 y0 x1 y1 : Half) : (s.setWindow x0 y0 x1 y1).phase = s.phase := rfl
@[simp] theorem State.setWindow_fcause (s : State) (x0 y0 x1 y1 : Half) : (s.setWindow x0 y0 x1 y1).fcause = s.fcause := rfl
@[simp] theorem State.setWindow_faddr (s : State) (x0 y0 x1 y1 : Half) : (s.setWindow x0 y0 x1 y1).faddr = s.faddr := rfl
@[simp] theorem State.setWindow_ev (s : State) (x0 y0 x1 y1 : Half) : (s.setWindow x0 y0 x1 y1).ev = s.ev := rfl
@[simp] theorem State.setWindow_tx (s : State) (x0 y0 x1 y1 : Half) : (s.setWindow x0 y0 x1 y1).tx = s.tx := rfl
@[simp] theorem State.setWindow_rdLog (s : State) (x0 y0 x1 y1 : Half) : (s.setWindow x0 y0 x1 y1).rdLog = s.rdLog := rfl
@[simp] theorem State.setWindow_lastCmd (s : State) (x0 y0 x1 y1 : Half) : (s.setWindow x0 y0 x1 y1).lastCmd = s.lastCmd := rfl
@[simp] theorem State.setWindow_cfg (s : State) (x0 y0 x1 y1 : Half) : (s.setWindow x0 y0 x1 y1).cfg = s.cfg := rfl
@[simp] theorem State.setWindow_table (s : State) (x0 y0 x1 y1 : Half) : (s.setWindow x0 y0 x1 y1).table = s.table := rfl
@[simp] theorem State.setWindow_tableLen (s : State) (x0 y0 x1 y1 : Half) : (s.setWindow x0 y0 x1 y1).tableLen = s.tableLen := rfl
@[simp] theorem State.setWindow_port (s : State) (x0 y0 x1 y1 : Half) : (s.setWindow x0 y0 x1 y1).port = s.port := rfl
@[simp] theorem State.setWindow_host (s : State) (x0 y0 x1 y1 : Half) : (s.setWindow x0 y0 x1 y1).host = s.host := rfl

/-! ### `splitLength` -/

@[simp] theorem State.splitLength_lines (s : State) (l : Byte) : (s.splitLength l).lines = s.lines := rfl
@[simp] theorem State.splitLength_latches (s : State) (l : Byte) : (s.splitLength l).latches = { s.latches with len := l, cnt := lengthCount l } := rfl
@[simp] theorem State.splitLength_cur (s : State) (l : Byte) : (s.splitLength l).cur = s.cur := rfl
@[simp] theorem State.splitLength_istate (s : State) (l : Byte) : (s.splitLength l).istate = s.istate := rfl
@[simp] theorem State.splitLength_dly (s : State) (l : Byte) : (s.splitLength l).dly = lengthDelay l := rfl
@[simp] theorem State.splitLength_phase (s : State) (l : Byte) : (s.splitLength l).phase = s.phase := rfl
@[simp] theorem State.splitLength_fcause (s : State) (l : Byte) : (s.splitLength l).fcause = s.fcause := rfl
@[simp] theorem State.splitLength_faddr (s : State) (l : Byte) : (s.splitLength l).faddr = s.faddr := rfl
@[simp] theorem State.splitLength_ev (s : State) (l : Byte) : (s.splitLength l).ev = s.ev := rfl
@[simp] theorem State.splitLength_tx (s : State) (l : Byte) : (s.splitLength l).tx = s.tx := rfl
@[simp] theorem State.splitLength_rdLog (s : State) (l : Byte) : (s.splitLength l).rdLog = s.rdLog := rfl
@[simp] theorem State.splitLength_lastCmd (s : State) (l : Byte) : (s.splitLength l).lastCmd = s.lastCmd := rfl
@[simp] theorem State.splitLength_cfg (s : State) (l : Byte) : (s.splitLength l).cfg = s.cfg := rfl
@[simp] theorem State.splitLength_table (s : State) (l : Byte) : (s.splitLength l).table = s.table := rfl
@[simp] theorem State.splitLength_tableLen (s : State) (l : Byte) : (s.splitLength l).tableLen = s.tableLen := rfl
@[simp] theorem State.splitLength_port (s : State) (l : Byte) : (s.splitLength l).port = s.port := rfl
@[simp] theorem State.splitLength_host (s : State) (l : Byte) : (s.splitLength l).host = s.host := rfl

/-! ### `raise` -/

@[simp] theorem State.raise_lines (s : State) (c : Cause) (info : Nat) : (s.raise c info).lines = s.lines := rfl
@[simp] theorem State.raise_latches (s : State) (c : Cause) (info : Nat) : (s.raise c info).latches = s.latches := rfl
@[simp] theorem State.raise_cur (s : State) (c : Cause) (info : Nat) : (s.raise c info).cur = s.cur := rfl
@[simp] theorem State.raise_istate (s : State) (c : Cause) (info : Nat) : (s.raise c info).istate = s.istate := rfl
@[simp] theorem State.raise_dly (s : State) (c : Cause) (info : Nat) : (s.raise c info).dly = s.dly := rfl
@[simp] theorem State.raise_phase (s : State) (c : Cause) (info : Nat) : (s.raise c info).phase = .faulted := rfl
@[simp] theorem State.raise_fcause (s : State) (c : Cause) (info : Nat) : (s.raise c info).fcause = causeCode c := rfl
@[simp] theorem State.raise_faddr (s : State) (c : Cause) (info : Nat) : (s.raise c info).faddr = info := rfl
@[simp] theorem State.raise_ev (s : State) (c : Cause) (info : Nat) : (s.raise c info).ev = s.ev ++ [.fault c info] := rfl
@[simp] theorem State.raise_tx (s : State) (c : Cause) (info : Nat) : (s.raise c info).tx = s.tx := rfl
@[simp] theorem State.raise_rdLog (s : State) (c : Cause) (info : Nat) : (s.raise c info).rdLog = s.rdLog := rfl
@[simp] theorem State.raise_lastCmd (s : State) (c : Cause) (info : Nat) : (s.raise c info).lastCmd = s.lastCmd := rfl
@[simp] theorem State.raise_cfg (s : State) (c : Cause) (info : Nat) : (s.raise c info).cfg = s.cfg := rfl
@[simp] theorem State.raise_table (s : State) (c : Cause) (info : Nat) : (s.raise c info).table = s.table := rfl
@[simp] theorem State.raise_tableLen (s : State) (c : Cause) (info : Nat) : (s.raise c info).tableLen = s.tableLen := rfl
@[simp] theorem State.raise_port (s : State) (c : Cause) (info : Nat) : (s.raise c info).port = s.port := rfl
@[simp] theorem State.raise_host (s : State) (c : Cause) (info : Nat) : (s.raise c info).host = s.host := rfl

/-! ### `finish` -/

@[simp] theorem State.finish_lines (s : State) : (s.finish).lines = s.lines := rfl
@[simp] theorem State.finish_latches (s : State) : (s.finish).latches = s.latches := rfl
@[simp] theorem State.finish_cur (s : State) : (s.finish).cur = s.cur := rfl
@[simp] theorem State.finish_istate (s : State) : (s.finish).istate = s.istate := rfl
@[simp] theorem State.finish_dly (s : State) : (s.finish).dly = s.dly := rfl
@[simp] theorem State.finish_phase (s : State) : (s.finish).phase = .idle := rfl
@[simp] theorem State.finish_fcause (s : State) : (s.finish).fcause = s.fcause := rfl
@[simp] theorem State.finish_faddr (s : State) : (s.finish).faddr = s.faddr := rfl
@[simp] theorem State.finish_ev (s : State) : (s.finish).ev = s.ev := rfl
@[simp] theorem State.finish_tx (s : State) : (s.finish).tx = s.tx := rfl
@[simp] theorem State.finish_rdLog (s : State) : (s.finish).rdLog = s.rdLog := rfl
@[simp] theorem State.finish_lastCmd (s : State) : (s.finish).lastCmd = s.lastCmd := rfl
@[simp] theorem State.finish_cfg (s : State) : (s.finish).cfg = s.cfg := rfl
@[simp] theorem State.finish_table (s : State) : (s.finish).table = s.table := rfl
@[simp] theorem State.finish_tableLen (s : State) : (s.finish).tableLen = s.tableLen := rfl
@[simp] theorem State.finish_port (s : State) : (s.finish).port = s.port := rfl
@[simp] theorem State.finish_host (s : State) : (s.finish).host = s.host := rfl

/-! ### `engineReset` -/

@[simp] theorem State.engineReset_lines (s : State) : (s.engineReset).lines = { rst := .high, cs := .high, rs := .high, wr := .high, rd := .high, d := s.cfg.dataReset } := rfl
@[simp] theorem State.engineReset_phase (s : State) : (s.engineReset).phase = .idle := rfl
@[simp] theorem State.engineReset_fcause (s : State) : (s.engineReset).fcause = 0 := rfl
@[simp] theorem State.engineReset_faddr (s : State) : (s.engineReset).faddr = 0 := rfl
@[simp] theorem State.engineReset_ev (s : State) : (s.engineReset).ev = [] := rfl
@[simp] theorem State.engineReset_tx (s : State) : (s.engineReset).tx = [] := rfl
@[simp] theorem State.engineReset_rdLog (s : State) : (s.engineReset).rdLog = [] := rfl
@[simp] theorem State.engineReset_lastCmd (s : State) : (s.engineReset).lastCmd = none := rfl
@[simp] theorem State.engineReset_cfg (s : State) : (s.engineReset).cfg = s.cfg := rfl
@[simp] theorem State.engineReset_table (s : State) : (s.engineReset).table = s.table := rfl
@[simp] theorem State.engineReset_tableLen (s : State) : (s.engineReset).tableLen = s.tableLen := rfl
@[simp] theorem State.engineReset_port (s : State) : (s.engineReset).port = s.port := rfl
@[simp] theorem State.engineReset_host (s : State) : (s.engineReset).host = s.host := rfl

/-! ### `fillTable` -/

@[simp] theorem State.fillTable_lines (s : State) (bytes : List Byte) : (s.fillTable bytes).lines = s.lines := rfl
@[simp] theorem State.fillTable_latches (s : State) (bytes : List Byte) : (s.fillTable bytes).latches = s.latches := rfl
@[simp] theorem State.fillTable_cur (s : State) (bytes : List Byte) : (s.fillTable bytes).cur = s.cur := rfl
@[simp] theorem State.fillTable_istate (s : State) (bytes : List Byte) : (s.fillTable bytes).istate = s.istate := rfl
@[simp] theorem State.fillTable_dly (s : State) (bytes : List Byte) : (s.fillTable bytes).dly = s.dly := rfl
@[simp] theorem State.fillTable_phase (s : State) (bytes : List Byte) : (s.fillTable bytes).phase = s.phase := rfl
@[simp] theorem State.fillTable_fcause (s : State) (bytes : List Byte) : (s.fillTable bytes).fcause = s.fcause := rfl
@[simp] theorem State.fillTable_faddr (s : State) (bytes : List Byte) : (s.fillTable bytes).faddr = s.faddr := rfl
@[simp] theorem State.fillTable_ev (s : State) (bytes : List Byte) : (s.fillTable bytes).ev = s.ev := rfl
@[simp] theorem State.fillTable_tx (s : State) (bytes : List Byte) : (s.fillTable bytes).tx = s.tx := rfl
@[simp] theorem State.fillTable_rdLog (s : State) (bytes : List Byte) : (s.fillTable bytes).rdLog = s.rdLog := rfl
@[simp] theorem State.fillTable_lastCmd (s : State) (bytes : List Byte) : (s.fillTable bytes).lastCmd = s.lastCmd := rfl
@[simp] theorem State.fillTable_cfg (s : State) (bytes : List Byte) : (s.fillTable bytes).cfg = s.cfg := rfl
@[simp] theorem State.fillTable_table (s : State) (bytes : List Byte) : (s.fillTable bytes).table = Memory.writeBytes [] 0 bytes := rfl
@[simp] theorem State.fillTable_tableLen (s : State) (bytes : List Byte) : (s.fillTable bytes).tableLen = bytes.length := rfl
@[simp] theorem State.fillTable_port (s : State) (bytes : List Byte) : (s.fillTable bytes).port = s.port := rfl
@[simp] theorem State.fillTable_host (s : State) (bytes : List Byte) : (s.fillTable bytes).host = s.host := rfl

/-! ### Line writes -/

theorem State.pinWrite_cs (s : State) (b : Level) :
    s.pinWrite .cs b = { s with lines := { s.lines with cs := b }, ev := s.ev ++ [.pin .cs b] } := by
  cases b <;> rfl

theorem State.pinWrite_rs (s : State) (b : Level) :
    s.pinWrite .rs b = { s with lines := { s.lines with rs := b }, ev := s.ev ++ [.pin .rs b] } := by
  cases b <;> rfl

theorem State.pinWrite_wr_low (s : State) :
    s.pinWrite .wr .low = { s with lines := { s.lines with wr := .low }, ev := s.ev ++ [.pin .wr .low] } := rfl

/-- A rising edge (`WR` was 0) latches when the controller is selected. -/
theorem State.pinWrite_wr_high (s : State) (hwr : s.lines.wr = .low) :
    s.pinWrite .wr .high =
      { s with
        lines := { s.lines with wr := .high }
        ev := s.ev ++ [.pin .wr .high]
        tx := s.tx ++ (if s.lines.cs = .low then [{ rs := s.lines.rs, byte := s.lines.d }] else [])
        lastCmd := if s.lines.cs = .low ∧ s.lines.rs = .low then some s.lines.d else s.lastCmd } := by
  by_cases hcs : s.lines.cs = .low <;>
    simp [State.pinWrite, State.controllerSees, State.controllerLatch, State.emit, Lines.set, hwr, hcs]

theorem State.pinWrite_rst_low (s : State) :
    s.pinWrite .rst .low =
      { s with lines := { s.lines with rst := .low }, ev := s.ev ++ [.pin .rst .low], lastCmd := none } := rfl

theorem State.pinWrite_rst_high (s : State) :
    s.pinWrite .rst .high =
      { s with lines := { s.lines with rst := .high }, ev := s.ev ++ [.pin .rst .high] } := rfl

end Sys2Proof.Machine
end

