-- ==== Sys2Proof/Laws/Memory.lean ====
section
/-! SUPPORT. Laws/Memory.lean: table memory: a read after a write, the canonical form under every operation, the bytes
a filling leaves. -/

namespace Sys2Proof.Machine

theorem Memory.wfFrom_mono {lo lo' : Nat} (h : lo ≤ lo') :
    ∀ {m : Memory}, m.wfFrom lo' = true → m.wfFrom lo = true
  | [], _ => rfl
  | (k, v) :: m, hm => by
    simp only [Memory.wfFrom, Bool.and_eq_true, decide_eq_true_eq] at hm ⊢
    exact ⟨⟨h.trans hm.1.1, hm.1.2⟩, hm.2⟩

/-- An index below every listed one reads as unlisted. -/
theorem Memory.read_of_lt {a : Nat} : ∀ {m : Memory} {lo : Nat}, m.wfFrom lo = true → a < lo →
    m.read a = Memory.unlisted
  | [], _, _, _ => rfl
  | (k, v) :: m, lo, hm, ha => by
    simp only [Memory.wfFrom, Bool.and_eq_true, decide_eq_true_eq] at hm
    have hk : k ≠ a := by omega
    simp only [Memory.read, hk, if_false]
    exact Memory.read_of_lt hm.2 (by omega)

/-- A write keeps the canonical form. -/
theorem Memory.wfFrom_write {a : Nat} {b : Byte} : ∀ {m : Memory} {lo : Nat}, m.wfFrom lo = true → lo ≤ a →
    (m.write a b).wfFrom lo = true
  | [], lo, _, ha => by
    by_cases hb : b = Memory.unlisted <;> simp [Memory.write, Memory.wfFrom, hb, ha]
  | (k, v) :: m, lo, hm, ha => by
    have hm' := hm
    simp only [Memory.wfFrom, Bool.and_eq_true, decide_eq_true_eq] at hm'
    obtain ⟨⟨hk, hv⟩, hrest⟩ := hm'
    unfold Memory.write
    by_cases hb : b = Memory.unlisted
    · rcases Nat.lt_trichotomy a k with h | h | h
      · simp [h, hb, hm]
      · simp [h, hb, Memory.wfFrom_mono (show lo ≤ k + 1 by omega) hrest]
      · simp [show ¬ a < k by omega, show ¬ a = k by omega, Memory.wfFrom, hk, hv,
          Memory.wfFrom_write hrest (show k + 1 ≤ a by omega)]
    · rcases Nat.lt_trichotomy a k with h | h | h
      · simp [h, hb, Memory.wfFrom, ha, hv, hrest, show a + 1 ≤ k by omega]
      · subst h
        simp [hb, Memory.wfFrom, hk, hrest]
      · simp [show ¬ a < k by omega, show ¬ a = k by omega, Memory.wfFrom, hk, hv,
          Memory.wfFrom_write hrest (show k + 1 ≤ a by omega)]

theorem Memory.wf_write {m : Memory} (h : m.wf = true) (a : Nat) (b : Byte) : (m.write a b).wf = true :=
  Memory.wfFrom_write h (Nat.zero_le a)

theorem Memory.wf_writeBytes : ∀ {bytes : List Byte} {m : Memory} {a : Nat}, m.wf = true →
    (m.writeBytes a bytes).wf = true
  | [], _, _, h => h
  | b :: _, m, a, h => Memory.wf_writeBytes (m := m.write a b) (Memory.wf_write h a b)

/-- A read after a write (canonical memories): the byte written at its index, the old byte elsewhere. -/
theorem Memory.read_write {a c : Nat} {b : Byte} : ∀ {m : Memory} {lo : Nat}, m.wfFrom lo = true →
    (m.write a b).read c = if c = a then b else m.read c
  | [], _, _ => by
    by_cases hb : b = Memory.unlisted <;> by_cases hc : a = c <;>
      simp [Memory.write, Memory.read, hb, hc, eq_comm (a := c)]
  | (k, v) :: m, lo, hm => by
    simp only [Memory.wfFrom, Bool.and_eq_true, decide_eq_true_eq] at hm
    obtain ⟨⟨hk, hv⟩, hrest⟩ := hm
    unfold Memory.write
    rcases Nat.lt_trichotomy a k with h | h | h
    · by_cases hb : b = Memory.unlisted
      · by_cases hc : c = a
        · subst hc
          simp [h, hb, Memory.read, show k ≠ c by omega, Memory.read_of_lt hrest (show c < k + 1 by omega)]
        · simp [h, hb, hc]
      · by_cases hc : c = a
        · simp [h, hb, hc, Memory.read]
        · simp [h, hb, hc, Memory.read, show ¬ a = c from fun h => hc h.symm]
    · subst h
      by_cases hb : b = Memory.unlisted <;> by_cases hc : c = a
      · subst hc
        simp [hb, Memory.read_of_lt hrest (show c < c + 1 by omega)]
      · simp [hb, hc, Memory.read, show ¬ a = c from fun h => hc h.symm]
      · simp [hb, hc, Memory.read]
      · simp [hb, hc, Memory.read, show ¬ a = c from fun h => hc h.symm]
    · have ih := Memory.read_write (a := a) (c := c) (b := b) hrest
      simp only [show ¬ a < k by omega, show ¬ a = k by omega, if_false, Memory.read, ih]
      by_cases hc : c = a
      · subst hc
        simp [show ¬ k = c by omega]
      · simp [hc]

/-- A read outside the bytes written gives what it gave before. -/
theorem Memory.read_writeBytes_of_lt {c : Nat} : ∀ {bytes : List Byte} {m : Memory} {a : Nat}, m.wf = true → c < a →
    (m.writeBytes a bytes).read c = m.read c
  | [], _, _, _, _ => rfl
  | b :: bytes, m, a, h, hc => by
    rw [Memory.writeBytes, Memory.read_writeBytes_of_lt (Memory.wf_write h a b) (by omega), Memory.read_write h]
    simp [show ¬ c = a by omega]

/-- The bytes written are the bytes read. -/
theorem Memory.bytes_writeBytes : ∀ {bytes : List Byte} {m : Memory} {a : Nat}, m.wf = true →
    (m.writeBytes a bytes).bytes a bytes.length = bytes
  | [], _, _, _ => rfl
  | b :: bytes, m, a, h => by
    have hw := Memory.wf_write h a b
    simp only [Memory.writeBytes, List.length_cons, Memory.bytes, List.cons.injEq]
    refine ⟨?_, Memory.bytes_writeBytes hw⟩
    rw [Memory.read_writeBytes_of_lt hw (by omega), Memory.read_write h]
    simp

theorem Memory.below_write {n a : Nat} {b : Byte} (ha : a < n) : ∀ {m : Memory}, m.below n = true →
    (m.write a b).below n = true
  | [], _ => by by_cases hb : b = Memory.unlisted <;> simp [Memory.write, Memory.below, hb, ha]
  | (k, v) :: m, h => by
    simp only [Memory.below, List.all_cons, Bool.and_eq_true, decide_eq_true_eq] at h
    have ih := Memory.below_write (b := b) ha (m := m) h.2
    simp only [Memory.below] at ih ⊢
    unfold Memory.write
    split_ifs <;> simp only [List.all_cons, Bool.and_eq_true, decide_eq_true_eq, *] <;> simp only [and_self]

theorem Memory.below_writeBytes {n : Nat} : ∀ {bytes : List Byte} {m : Memory} {a : Nat}, m.below n = true →
    a + bytes.length ≤ n → (m.writeBytes a bytes).below n = true
  | [], _, _, h, _ => h
  | b :: bytes, m, a, h, hn => by
    simp only [List.length_cons] at hn
    exact Memory.below_writeBytes (m := m.write a b) (Memory.below_write (show a < n by omega) h) (by omega)

/-- Reset's table is in canonical form. -/
theorem Memory.wf_resetWith (c : Config) : (State.resetWith c).table.wf = true := rfl

theorem State.fillTable_wf (s : State) (bytes : List Byte) : (s.fillTable bytes).table.wf = true :=
  Memory.wf_writeBytes rfl

theorem State.fillTable_below (s : State) (bytes : List Byte) :
    (s.fillTable bytes).table.below (s.fillTable bytes).tableLen = true :=
  Memory.below_writeBytes rfl (by simp)

@[simp] theorem Memory.length_bytes (m : Memory) (a n : Nat) : (m.bytes a n).length = n := by
  induction n generalizing a with
  | zero => rfl
  | succ n ih => simp [Memory.bytes, ih]

theorem Memory.bytes_add (m : Memory) (a k n : Nat) : m.bytes a (k + n) = m.bytes a k ++ m.bytes (a + k) n := by
  induction k generalizing a with
  | zero => simp [Memory.bytes]
  | succ k ih =>
    rw [show k + 1 + n = (k + n) + 1 by omega]
    simp only [Memory.bytes, ih, List.cons_append]
    rw [show a + 1 + k = a + (k + 1) by omega]

end Sys2Proof.Machine
end

