-- ==== Sys2Proof/Laws/Decode.lean ====
section
/-! SUPPORT. Laws/Decode.lean: the length byte, and what the record decoder answers (30_encoding.md R73 to R76). -/

namespace Sys2Proof

theorem lengthCount_toNat (l : Byte) : (lengthCount l).toNat = l.toNat % 128 := by
  simp [lengthCount, BitVec.extractLsb'_toNat]

theorem lengthCount_lengthByte {d : Bool} {n : Nat} (h : n ≤ 127) : (lengthCount (lengthByte d n)).toNat = n := by
  have key : ∀ (d : Bool) (n : Fin 128), (lengthCount (lengthByte d n.val)).toNat = n.val := by decide
  exact key d ⟨n, by omega⟩

theorem lengthDelay_lengthByte {d : Bool} {n : Nat} (h : n ≤ 127) : lengthDelay (lengthByte d n) = d := by
  have key : ∀ (d : Bool) (n : Fin 128), lengthDelay (lengthByte d n.val) = d := by decide
  exact key d ⟨n, by omega⟩

/-- A length byte is put together again from its two fields. -/
theorem lengthByte_split (l : Byte) : lengthByte (lengthDelay l) (lengthCount l).toNat = l := by
  revert l; decide

/-- A record of format T (R72, R75): with all its arguments there, it is decoded and the rest follows. -/
theorem decodeRecord_entry {op l : Byte} {args rest : List Byte} (hop : op ≠ 0#8)
    (hn : args.length = (lengthCount l).toNat) :
    decodeRecord (op :: l :: (args ++ rest)) =
      .ok (if lengthDelay l then .entd op args else .ent op args, rest) := by
  simp only [decodeRecord, hop, if_false, ← hn, List.length_append]
  rw [if_neg (by omega)]
  split_ifs <;> simp

/-- The terminator (R74), whatever follows. -/
@[simp] theorem decodeRecord_end (rest : List Byte) : decodeRecord (0#8 :: rest) = .ok (.endRec, rest) := rfl

/-- What the record decoder can answer: one of three failures or three records, each with the bytes it was read from. -/
theorem decodeRecord_cases (bytes : List Byte) :
    (bytes = [] ∧ decodeRecord bytes = .error .noOpcode) ∨
    (∃ op, op ≠ 0#8 ∧ bytes = [op] ∧ decodeRecord bytes = .error (.noLength op)) ∨
    (∃ op l more, op ≠ 0#8 ∧ bytes = op :: l :: more ∧ more.length < (lengthCount l).toNat ∧
      decodeRecord bytes = .error (.noArgs op l)) ∨
    (∃ rest, bytes = 0#8 :: rest ∧ decodeRecord bytes = .ok (.endRec, rest)) ∨
    (∃ op l args rest, op ≠ 0#8 ∧ bytes = op :: l :: (args ++ rest) ∧ args.length = (lengthCount l).toNat ∧
      decodeRecord bytes = .ok (if lengthDelay l then .entd op args else .ent op args, rest)) := by
  rcases bytes with _ | ⟨op, _ | ⟨l, more⟩⟩
  · exact .inl ⟨rfl, rfl⟩
  · by_cases hop : op = 0#8
    · subst hop
      exact .inr (.inr (.inr (.inl ⟨[], rfl, rfl⟩)))
    · exact .inr (.inl ⟨op, hop, rfl, by simp [decodeRecord, hop]⟩)
  · by_cases hop : op = 0#8
    · subst hop
      exact .inr (.inr (.inr (.inl ⟨_, rfl, rfl⟩)))
    · by_cases hlen : more.length < (lengthCount l).toNat
      · exact .inr (.inr (.inl ⟨op, l, more, hop, rfl, hlen, by simp [decodeRecord, hop, hlen]⟩))
      · have hargs : (more.take (lengthCount l).toNat).length = (lengthCount l).toNat := by
          simp only [List.length_take]; omega
        refine .inr (.inr (.inr (.inr ⟨op, l, more.take (lengthCount l).toNat, more.drop (lengthCount l).toNat, hop, ?_,
          hargs, ?_⟩)))
        · rw [List.take_append_drop]
        · conv_lhs => rw [← List.take_append_drop (lengthCount l).toNat more]
          exact decodeRecord_entry hop hargs

/-- The eight values of a three-bit select field. -/
theorem op_cases (op : BitVec 3) :
    op = 0 ∨ op = 1 ∨ op = 2 ∨ op = 3 ∨ op = 4 ∨ op = 5 ∨ op = 6 ∨ op = 7 := by
  revert op; decide

/-- The request decoder refuses the code 7 only (R83). -/
theorem decodeRequest_error {r : HostReq} {e : DecodeError} (h : decodeRequest r = .error e) :
    r.op = 7 ∧ e = .reservedOp r.op := by
  rcases op_cases r.op with ho | ho | ho | ho | ho | ho | ho | ho <;> simp [decodeRequest, ho] at h
  exact ⟨ho, by rw [← h, ho]; rfl⟩

/-- A request decodes to an instruction of the host level. -/
theorem decodeRequest_isRequest {r : HostReq} {i : Instr} (h : decodeRequest r = .ok i) : i.isRequest = true := by
  unfold decodeRequest at h
  split at h <;> cases h <;> rfl

/-- The record decoder answers a table record. -/
theorem decodeRecord_isRecord {bytes rest : List Byte} {i : Instr} (h : decodeRecord bytes = .ok (i, rest)) :
    i.isRequest = false := by
  rcases decodeRecord_cases bytes with ⟨_, e⟩ | ⟨_, _, _, e⟩ | ⟨_, _, _, _, _, _, e⟩ | ⟨_, _, e⟩ | ⟨_, _, _, _, _, _, _, e⟩
  · rw [e] at h; cases h
  · rw [e] at h; cases h
  · rw [e] at h; cases h
  · rw [e] at h; cases h; rfl
  · rw [e] at h
    split at h <;> cases h <;> rfl

end Sys2Proof
end

