-- ==== Sys2Proof/Laws/PerInstr.lean ====
section
/-! SUPPORT. Laws/PerInstr.lean: a statement about every instruction as syntax: its encoding is of its own level, a
host request has a code below 7 (30_encoding.md R81), a record has 1 byte or 2 + n bytes, at most 129 (R90). -/

namespace Sys2Proof.Laws.EncodedShape

/-- The shape of the encoding of `i`. -/
def Statement (i : Instr) : Prop :=
  i.wf = true →
    match encode i with
    | .request r => i.isRequest = true ∧ r.op ≠ 7
    | .record bytes => i.isRequest = false ∧ 1 ≤ bytes.length ∧ bytes.length ≤ longestRecord

theorem buswr (v : Byte) : Statement (.buswr v) := fun _ => ⟨rfl, show (0 : BitVec 3) ≠ 7 by decide⟩

theorem cmd (opcode : Byte) : Statement (.cmd opcode) := fun _ => ⟨rfl, show (1 : BitVec 3) ≠ 7 by decide⟩

theorem frame (opcode : Byte) (args : List Byte) : Statement (.frame opcode args) := fun _ => ⟨rfl, show (2 : BitVec 3) ≠ 7 by decide⟩

theorem init (base : Nat) : Statement (.init base) := fun _ => ⟨rfl, show (3 : BitVec 3) ≠ 7 by decide⟩

theorem setwin (x0 y0 x1 y1 : Half) : Statement (.setwin x0 y0 x1 y1) := fun _ => ⟨rfl, show (4 : BitVec 3) ≠ 7 by decide⟩

theorem wrpix (x y color : Half) : Statement (.wrpix x y color) := fun _ => ⟨rfl, show (5 : BitVec 3) ≠ 7 by decide⟩

theorem rstp : Statement .rstp := fun _ => ⟨rfl, show (6 : BitVec 3) ≠ 7 by decide⟩

theorem ent (op : Byte) (args : List Byte) : Statement (.ent op args) := fun h => by
  simp only [Instr.wf, Bool.and_eq_true, decide_eq_true_eq] at h
  exact ⟨rfl, by simp, by simp only [List.length_cons, longestRecord]; omega⟩

theorem entd (op : Byte) (args : List Byte) : Statement (.entd op args) := fun h => by
  simp only [Instr.wf, Bool.and_eq_true, decide_eq_true_eq] at h
  exact ⟨rfl, by simp, by simp only [List.length_cons, longestRecord]; omega⟩

theorem endRec : Statement .endRec := fun _ => ⟨rfl, by decide, by decide⟩

end Sys2Proof.Laws.EncodedShape
end

