-- ==== Sys2Proof/Laws/Procedures.lean ====
section
/-! SUPPORT. Laws/Procedures.lean: everything each shared procedure does, as one equation each. -/

namespace Sys2Proof.Machine

/-- `BusWrite(v)` (40_bus_transaction.md R100, R102, R105). -/
theorem State.busWrite_eq (s : State) (v : Byte) :
    s.busWrite v =
      { s with
        lines := { s.lines with d := v, wr := .high }
        ev := s.ev ++ busWriteEvents s.cfg v
        tx := s.tx ++ (if s.lines.cs = .low then [{ rs := s.lines.rs, byte := v }] else [])
        lastCmd := if s.lines.cs = .low ∧ s.lines.rs = .low then some v else s.lastCmd } := by
  unfold State.busWrite
  rw [State.pinWrite_wr_low, State.pinWrite_wr_high _ rfl]
  simp [State.portWrite, State.delay, State.emit, busWriteEvents]

/-- The opening of both frames (41_command_frame.md R110, R111). -/
theorem State.sendOpcode_eq (s : State) (opcode : Byte) :
    s.sendOpcode opcode =
      { s with
        lines := { s.lines with cs := .low, rs := .low, wr := .high, d := opcode }
        latches := { s.latches with opc := opcode }
        ev := s.ev ++ cmdEvents s.cfg opcode
        tx := s.tx ++ [cmdXfer opcode]
        lastCmd := some opcode } := by
  unfold State.sendOpcode
  simp only [State.busWrite_eq, State.pinWrite_cs, State.pinWrite_rs]
  simp [State.setOpc, cmdEvents, cmdXfer]

/-- The argument loop (R111, R115), on a selected controller at the data level with an idle strobe. -/
theorem State.sendArgs_eq (args : List Byte) (s : State) (hcs : s.lines.cs = .low) (hrs : s.lines.rs = .high)
    (hwr : s.lines.wr = .high) :
    s.sendArgs args =
      { s with
        lines := { s.lines with d := lastByte s.lines.d args }
        latches := { s.latches with argi := s.latches.argi + args.length }
        ev := s.ev ++ args.flatMap (busWriteEvents s.cfg)
        tx := s.tx ++ args.map dataXfer } := by
  induction args generalizing s with
  | nil => simp [State.sendArgs, lastByte]
  | cons a args ih =>
    unfold State.sendArgs
    simp only [State.busWrite_eq, State.setArgi, hcs, hrs]
    rw [ih _ (by simp) (by simp) rfl]
    have hargi : s.latches.argi + 1 + args.length = s.latches.argi + (a :: args).length := by
      simp only [List.length_cons]; omega
    simp [hwr, hargi, lastByte, dataXfer]

/-- `Frame(opcode, args)` (R111, R113). -/
theorem State.frame_eq (s : State) (opcode : Byte) (args : List Byte) :
    s.frame opcode args =
      { s with
        lines := { s.lines with cs := .low, rs := .high, wr := .high, d := lastByte opcode args }
        latches := { s.latches with opc := opcode, argi := args.length }
        ev := s.ev ++ frameEvents s.cfg opcode args
        tx := s.tx ++ frameXfers opcode args
        lastCmd := some opcode } := by
  unfold State.frame
  rw [State.sendOpcode_eq, State.pinWrite_rs, State.sendArgs_eq _ _ rfl rfl rfl]
  simp [State.setArgi, frameEvents, frameXfers]

/-- `SetWin(x0, y0, x1, y1)` (43_addressing_pixel.md R150). -/
theorem State.setWin_eq (s : State) (x0 y0 x1 y1 : Half) :
    s.setWin x0 y0 x1 y1 =
      { s with
        lines := { s.lines with cs := .low, rs := .high, wr := .high, d := lo8 y1 }
        latches := { s.latches with opc := s.cfg.pasetOp, argi := 4, x0 := x0, y0 := y0, x1 := x1, y1 := y1 }
        ev := s.ev ++ setWinEvents s.cfg x0 y0 x1 y1
        tx := s.tx ++ setWinXfers s.cfg x0 y0 x1 y1
        lastCmd := some s.cfg.pasetOp } := by
  unfold State.setWin
  simp [State.frame_eq, State.setWindow, be16, setWinEvents, setWinXfers, rangeArgs, lastByte]

/-- `S_OPC` with any byte (42_init_table.md R127). -/
theorem State.takeOpcode_eq (s : State) (op : Byte) :
    s.takeOpcode op =
      { s with
        rdLog := s.rdLog ++ [s.cur]
        latches := { s.latches with opc := op }
        cur := if op = 0#8 then s.cur else s.cur + 1
        istate := if op = 0#8 then .sHalt else .sLen } := by
  unfold State.takeOpcode
  split <;> simp [State.logRead, State.setOpc, *]

/-- `S_OPC` with a byte other than the sentinel (42_init_table.md R127). -/
theorem State.takeOpcode_entry (s : State) {op : Byte} (hop : op ≠ 0#8) :
    s.takeOpcode op =
      { s with
        rdLog := s.rdLog ++ [s.cur]
        latches := { s.latches with opc := op }
        cur := s.cur + 1
        istate := .sLen } := by
  simp [State.takeOpcode, State.logRead, State.setOpc, hop]

/-- `S_OPC` at the sentinel (R127, R132). -/
theorem State.takeOpcode_end (s : State) :
    s.takeOpcode 0#8 =
      { s with rdLog := s.rdLog ++ [s.cur], latches := { s.latches with opc := 0#8 }, istate := .sHalt } := by
  simp [State.takeOpcode, State.logRead, State.setOpc]

/-- `S_LEN` (R128). -/
theorem State.takeLength_eq (s : State) (l : Byte) :
    s.takeLength l =
      { s with
        rdLog := s.rdLog ++ [s.cur]
        latches := { s.latches with len := l, cnt := lengthCount l }
        dly := lengthDelay l
        cur := s.cur + 1
        istate := .sArg } := by
  simp [State.takeLength, State.logRead, State.splitLength]

/-- The settle delay of a record whose length byte has its flag (R131), as events. -/
def settleEvents (c : Config) (d : Bool) : List Event := if d then [.delay c.tSettle] else []

/-- `S_ARG` once its bounds check has passed (R129). -/
theorem State.dispatchArgs_eq (s : State) (args : List Byte) :
    s.dispatchArgs args =
      { s with
        lines := { s.lines with cs := .low, rs := .high, wr := .high, d := lastByte s.latches.opc args }
        latches := { s.latches with argi := args.length }
        cur := s.cur + s.latches.cnt.toNat
        istate := .sOpc
        ev := s.ev ++ frameEvents s.cfg s.latches.opc args ++ settleEvents s.cfg s.dly
        tx := s.tx ++ frameXfers s.latches.opc args
        rdLog := s.rdLog ++ List.range' s.cur s.latches.cnt.toNat
        lastCmd := some s.latches.opc } := by
  unfold State.dispatchArgs
  simp only [State.frame_eq, State.logReads]
  cases hd : s.dly <;> simp [State.delay, State.emit, settleEvents]

theorem range'_split (a n : Nat) : List.range' a (2 + n) = a :: (a + 1) :: List.range' (a + 2) n := by
  rw [show 2 + n = n + 1 + 1 by omega, List.range'_succ, List.range'_succ]

/-- A record of format T that lies in the table (R127 to R129, R136, R137). -/
theorem State.record_fits (s : State) {op l : Byte} (args : List Byte) (hop : op ≠ 0#8)
    (hfit : s.cur + 2 + (lengthCount l).toNat ≤ s.tableLen) :
    s.record op l args =
      { s with
        lines := { s.lines with cs := .low, rs := .high, wr := .high, d := lastByte op args }
        latches := { s.latches with opc := op, len := l, cnt := lengthCount l, argi := args.length }
        cur := s.cur + 2 + (lengthCount l).toNat
        istate := .sOpc
        dly := lengthDelay l
        ev := s.ev ++ frameEvents s.cfg op args ++ settleEvents s.cfg (lengthDelay l)
        tx := s.tx ++ frameXfers op args
        rdLog := s.rdLog ++ List.range' s.cur (2 + (lengthCount l).toNat)
        lastCmd := some op } := by
  unfold State.record State.runLength State.runArgs
  simp only [State.takeOpcode_entry _ hop, State.takeLength_eq, State.dispatchArgs_eq]
  rw [if_neg (by omega), if_neg (by omega), if_neg (by omega)]
  simp [range'_split]

/-- What a record of format T can do: it is performed whole, or it is cut short by the end of the table at one of the
three states, and nothing is sent (R135). -/
theorem State.record_cases (s : State) {op l : Byte} (args : List Byte) (hop : op ≠ 0#8) :
    (s.cur + 2 + (lengthCount l).toNat ≤ s.tableLen ∧
      s.record op l args = ((s.takeOpcode op).takeLength l).dispatchArgs args) ∨
    (s.tableLen ≤ s.cur ∧ s.record op l args = s.cutShort .noOpcode) ∨
    (s.tableLen = s.cur + 1 ∧ s.record op l args = s.cutShort (.noLength op)) ∨
    (s.cur + 2 ≤ s.tableLen ∧ s.tableLen < s.cur + 2 + (lengthCount l).toNat ∧
      s.record op l args = s.cutShort (.noArgs op l)) := by
  unfold State.record State.runLength State.runArgs State.cutShort
  simp only [State.takeOpcode_entry _ hop, State.takeLength_eq]
  split_ifs with h1 h2 h3
  · exact .inr (.inl ⟨h1, rfl⟩)
  · exact .inr (.inr (.inl ⟨by omega, rfl⟩))
  · exact .inr (.inr (.inr ⟨by omega, by omega, rfl⟩))
  · exact .inl ⟨by omega, rfl⟩

/-- The terminator inside the table (R132, R138). -/
theorem State.haltRecord_fits (s : State) (hfit : s.cur < s.tableLen) :
    s.haltRecord =
      { s with
        rdLog := s.rdLog ++ [s.cur]
        latches := { s.latches with opc := 0#8 }
        istate := .sHalt
        phase := .idle } := by
  unfold State.haltRecord
  rw [if_neg (by omega), State.takeOpcode_end]
  rfl

/-- The two shapes of a record's effect: the bounds fault, or the dispatch, after reads and latches only. -/
theorem State.record_forms (s : State) (op l : Byte) (args : List Byte) :
    ∃ la c i d r,
      (∃ info, s.record op l args =
        State.raise { s with latches := la, cur := c, istate := i, dly := d, rdLog := s.rdLog ++ r } .tableBounds info) ∨
      s.record op l args =
        State.dispatchArgs { s with latches := la, cur := c, istate := i, dly := d, rdLog := s.rdLog ++ r } args := by
  unfold State.record State.runLength State.runArgs
  simp only [State.takeOpcode_eq, State.takeLength_eq]
  generalize (if op = 0#8 then s.cur else s.cur + 1) = c1
  generalize (if op = 0#8 then IState.sHalt else IState.sLen) = i1
  split_ifs with h1 h2 h3
  · exact ⟨s.latches, s.cur, s.istate, s.dly, [], .inl ⟨s.cur, by simp only [List.append_nil]⟩⟩
  · exact ⟨_, _, _, s.dly, _, .inl ⟨_, rfl⟩⟩
  · exact ⟨_, _, _, _, [s.cur, c1], .inl ⟨_, by
      simp only [List.append_assoc, List.cons_append, List.nil_append]; rfl⟩⟩
  · exact ⟨_, _, _, _, [s.cur, c1], .inr (by simp only [List.append_assoc, List.cons_append, List.nil_append]; rfl)⟩

/-- The two shapes of what an interpreter found in `S_ARG` does. -/
theorem State.resumeArgs_forms (s : State) :
    s.resumeArgs = s.raise .tableBounds s.tableLen ∨
    (s.cur + s.latches.cnt.toNat ≤ s.tableLen ∧
      s.resumeArgs = s.dispatchArgs (s.table.bytes s.cur s.latches.cnt.toNat)) := by
  unfold State.resumeArgs State.runArgs
  split_ifs with h
  · exact .inl rfl
  · exact .inr ⟨by omega, rfl⟩

/-- The two shapes of what an interpreter found in `S_LEN` does: the bounds fault, or `S_ARG` after the length byte. -/
theorem State.resumeLength_forms (s : State) :
    s.resumeLength = s.raise .tableBounds s.cur ∨
    (s.cur < s.tableLen ∧ s.resumeLength = (s.takeLength (s.table.read s.cur)).resumeArgs) := by
  unfold State.resumeLength State.runLength
  split_ifs with h
  · exact .inl rfl
  · exact .inr ⟨by omega, by simp only [State.resumeArgs, State.takeLength_eq]⟩

/-- The two shapes of END's effect. -/
theorem State.haltRecord_forms (s : State) :
    s.haltRecord = s.raise .tableBounds s.cur ∨
    s.haltRecord =
      { s with
        rdLog := s.rdLog ++ [s.cur]
        latches := { s.latches with opc := 0#8 }
        istate := .sHalt
        phase := .idle } := by
  by_cases h : s.tableLen ≤ s.cur
  · left; simp [State.haltRecord, h]
  · right; exact State.haltRecord_fits s (by omega)

/-- A record cut short raises, after reads and latches only. -/
theorem State.cutShort_forms (s : State) (e : DecodeError) :
    ∃ la c i d r ca info, s.cutShort e =
      State.raise { s with latches := la, cur := c, istate := i, dly := d, rdLog := s.rdLog ++ r } ca info := by
  cases e
  · exact ⟨s.latches, s.cur, s.istate, s.dly, [], .reservedOp, _, by simp only [State.cutShort, List.append_nil]; rfl⟩
  · exact ⟨s.latches, s.cur, s.istate, s.dly, [], _, _, by simp only [State.cutShort, List.append_nil]; rfl⟩
  · simp only [State.cutShort, State.takeOpcode_eq]; exact ⟨_, _, _, s.dly, _, _, _, rfl⟩
  · simp only [State.cutShort, State.takeOpcode_eq, State.takeLength_eq, List.append_assoc]
    exact ⟨_, _, _, _, _, _, _, rfl⟩

end Sys2Proof.Machine
end

