-- ==== Sys2Proof/Laws/Step.lean ====
section
/-! SUPPORT. Laws/Step.lean: what a step can do, said once: the acceptance of a request, the performing of a record,
the fetch, and the step. -/

namespace Sys2Proof.Machine

/-- A ready engine accepts (60_exceptions.md R186, R187). -/
theorem State.accept_of_ready {s : State} (h : s.ready) (body : State → State) :
    s.accept body = .next (body { s with phase := .run }) := if_pos h

/-- An engine that is not ready does not (R188). -/
theorem State.accept_of_not_ready {s : State} (h : ¬ s.ready) (body : State → State) :
    s.accept body = .fault .notReady := if_neg h

theorem State.accept_next {s t : State} {body : State → State} (h : s.accept body = .next t) :
    s.ready ∧ t = body { s with phase := .run } := by
  unfold State.accept at h
  split at h
  · cases h; exact ⟨‹_›, rfl⟩
  · cases h

theorem State.perform_of_due {s : State} (h : s.recordDue) (body : State → State) :
    s.perform body = .next (body s) := if_pos h

theorem State.perform_of_not_due {s : State} (h : ¬ s.recordDue) (body : State → State) :
    s.perform body = .fault .noRecordDue := if_neg h

theorem State.perform_next {s t : State} {body : State → State} (h : s.perform body = .next t) :
    s.recordDue ∧ t = body s := by
  unfold State.perform at h
  split at h
  · cases h; exact ⟨‹_›, rfl⟩
  · cases h

/-! ### What each instruction can do: if it answers a next state, it is this one -/

theorem exec_buswr_next {v : Byte} {s t : State} (h : exec (.buswr v) s = .next t) :
    s.ready ∧ t = (State.busWrite { s with phase := .run } v).finish := by
  simp only [exec, execBuswr] at h
  exact State.accept_next h

theorem exec_cmd_next {opcode : Byte} {s t : State} (h : exec (.cmd opcode) s = .next t) :
    s.ready ∧ t = (State.sendOpcode { s with phase := .run } opcode).finish := by
  simp only [exec, execCmd] at h
  exact State.accept_next h

theorem exec_frame_next {opcode : Byte} {args : List Byte} {s t : State} (h : exec (.frame opcode args) s = .next t) :
    s.ready ∧ t = (State.frame { s with phase := .run } opcode args).finish := by
  simp only [exec, execFrame] at h
  exact State.accept_next h

theorem exec_init_next {base : Nat} {s t : State} (h : exec (.init base) s = .next t) :
    s.ready ∧ t = { s with phase := .run, cur := base, istate := .sOpc } := by
  simp only [exec, execInit] at h
  exact State.accept_next h

theorem exec_setwin_next {x0 y0 x1 y1 : Half} {s t : State} (h : exec (.setwin x0 y0 x1 y1) s = .next t) :
    s.ready ∧ t = (State.setWin { s with phase := .run } x0 y0 x1 y1).finish := by
  simp only [exec, execSetwin] at h
  obtain ⟨hs, rfl⟩ := State.accept_next h
  exact ⟨hs, rfl⟩

/-- WRPIX with its two procedures written out as their equations. -/
theorem exec_wrpix_next {x y color : Half} {s t : State} (h : exec (.wrpix x y color) s = .next t) :
    s.ready ∧ t =
      { s with
        lines := { s.lines with cs := .low, rs := .high, wr := .high, d := lo8 color }
        latches :=
          { s.latches with
            opc := s.cfg.ramwrOp
            argi := 2
            x0 := x
            y0 := y
            x1 := addSpan x s.cfg.pixW
            y1 := addSpan y s.cfg.pixH
            color := color }
        ev := s.ev ++ setWinEvents s.cfg x y (addSpan x s.cfg.pixW) (addSpan y s.cfg.pixH) ++
          frameEvents s.cfg s.cfg.ramwrOp (be16 color)
        tx := s.tx ++ setWinXfers s.cfg x y (addSpan x s.cfg.pixW) (addSpan y s.cfg.pixH) ++
          frameXfers s.cfg.ramwrOp (be16 color)
        lastCmd := some s.cfg.ramwrOp } := by
  simp only [exec, execWrpix] at h
  obtain ⟨hs, rfl⟩ := State.accept_next h
  refine ⟨hs, ?_⟩
  simp only [State.setWin_eq, State.frame_eq, State.finish, State.setColor]
  simp [hs.symm, be16, lastByte]

theorem exec_rstp_next {s t : State} (h : exec .rstp s = .next t) :
    s.ready ∧ t =
      { s with
        lines := { s.lines with rst := .high }
        ev := s.ev ++ [.pin .rst .low, .delay s.cfg.tRstLow, .pin .rst .high, .delay s.cfg.tRstHigh]
        lastCmd := none } := by
  simp only [exec, execRstp] at h
  obtain ⟨hs, rfl⟩ := State.accept_next h
  refine ⟨hs, ?_⟩
  simp only [State.pinWrite_rst_low, State.pinWrite_rst_high, State.finish, State.delay, State.emit]
  simp [hs.symm]

theorem exec_ent_next {op : Byte} {args : List Byte} {s t : State} (h : exec (.ent op args) s = .next t) :
    s.recordDue ∧ t = s.record op (lengthByte false args.length) args := by
  simp only [exec, execEnt] at h
  exact State.perform_next h

theorem exec_entd_next {op : Byte} {args : List Byte} {s t : State} (h : exec (.entd op args) s = .next t) :
    s.recordDue ∧ t = s.record op (lengthByte true args.length) args := by
  simp only [exec, execEntd] at h
  exact State.perform_next h

theorem exec_endRec_next {s t : State} (h : exec .endRec s = .next t) :
    s.recordDue ∧ t = s.haltRecord := by
  simp only [exec, execEndRec] at h
  exact State.perform_next h

/-- A ready engine answers every request with a next state. -/
theorem exec_of_ready {i : Instr} {s : State} (hi : i.isRequest = true) (hs : s.ready) : ∃ t, exec i s = .next t := by
  cases i <;> simp only [Instr.isRequest, Bool.false_eq_true] at hi <;>
    simp only [exec, execBuswr, execCmd, execFrame, execInit, execSetwin, execWrpix, execRstp,
      State.accept_of_ready hs] <;>
    exact ⟨_, rfl⟩

/-- A table record that is due has a next state: performed, or the bounds fault taken. -/
theorem exec_of_due {i : Instr} {s : State} (hi : i.isRequest = false) (hs : s.recordDue) : ∃ t, exec i s = .next t := by
  cases i <;> simp only [Instr.isRequest, reduceCtorEq] at hi <;>
    simp only [exec, execEnt, execEntd, execEndRec, State.perform_of_due hs] <;>
    exact ⟨_, rfl⟩

/-- A meaning never refuses. -/
theorem exec_not_refused (i : Instr) (s : State) (r : Refusal) : exec i s ≠ .refused r := by
  cases i <;>
    simp only [exec, execBuswr, execCmd, execFrame, execInit, execSetwin, execWrpix, execRstp, execEnt, execEntd,
      execEndRec, State.accept, State.perform] <;>
    split <;> exact fun h => nomatch h

/-- What the engine's part of a step can be: nothing, a request accepted, the reserved code, a record, a cut record, or
the rest of what a running interpreter that is not at an opcode position has begun. -/
theorem engineFetch_cases (s : State) :
    (s.phase = .faulted ∧ engineFetch s = .moved s) ∨
    (s.phase = .idle ∧ s.port = none ∧ engineFetch s = .moved s) ∨
    (∃ r i, s.phase = .idle ∧ s.port = some r ∧ decodeRequest r = .ok i ∧
      engineFetch s = .issue i { s with port := none }) ∨
    (∃ r, s.phase = .idle ∧ s.port = some r ∧ r.op = 7 ∧
      engineFetch s = .moved ({ s with port := none }.raise .reservedOp 7)) ∨
    (∃ i rest, s.recordDue ∧ decodeRecord s.remaining = .ok (i, rest) ∧ engineFetch s = .issue i s) ∨
    (∃ e, s.recordDue ∧ decodeRecord s.remaining = .error e ∧ engineFetch s = .moved (s.cutShort e)) ∨
    (s.phase = .run ∧ s.istate = .sLen ∧ engineFetch s = .moved s.resumeLength) ∨
    (s.phase = .run ∧ s.istate = .sArg ∧ engineFetch s = .moved s.resumeArgs) ∨
    (s.phase = .run ∧ s.istate = .sHalt ∧ engineFetch s = .moved s.finish) := by
  unfold engineFetch
  cases hp : s.phase with
  | faulted => exact .inl ⟨rfl, rfl⟩
  | idle =>
    cases hq : s.port with
    | none => exact .inr (.inl ⟨rfl, rfl, rfl⟩)
    | some r =>
      cases hd : decodeRequest r with
      | ok i => exact .inr (.inr (.inl ⟨r, i, rfl, rfl, hd, by simp [hd]⟩))
      | error e =>
        obtain ⟨ho, rfl⟩ := decodeRequest_error hd
        exact .inr (.inr (.inr (.inl ⟨r, rfl, rfl, ho, by simp [hd, State.cutShort, ho]⟩)))
  | run =>
    cases hi : s.istate with
    | sOpc =>
      cases hd : decodeRecord s.remaining with
      | ok p => exact .inr (.inr (.inr (.inr (.inl ⟨p.1, p.2, ⟨hp, hi⟩, rfl, rfl⟩))))
      | error e => exact .inr (.inr (.inr (.inr (.inr (.inl ⟨e, ⟨hp, hi⟩, rfl, rfl⟩)))))
    | sLen => exact .inr (.inr (.inr (.inr (.inr (.inr (.inl ⟨rfl, rfl, rfl⟩))))))
    | sArg => exact .inr (.inr (.inr (.inr (.inr (.inr (.inr (.inl ⟨rfl, rfl, rfl⟩)))))))
    | sHalt => exact .inr (.inr (.inr (.inr (.inr (.inr (.inr (.inr ⟨rfl, rfl, rfl⟩)))))))

@[simp] theorem Fetched.outcome_moved (s : State) : (Fetched.moved s).outcome = .next s := rfl

@[simp] theorem Fetched.outcome_issue (i : Instr) (s : State) : (Fetched.issue i s).outcome = exec i s := rfl

/-- The engine's part of a step, as an outcome. -/
def engineStep (s : State) : Host.Outcome State Fault Refusal := (engineFetch s).outcome

/-- The step, when the host leaves it to the engine. -/
theorem step_of_no_host {s : State} (h : s.host = []) : step s = (engineFetch s).outcome := by
  simp only [step, fetch, h]

/-- What a step is: engine reset, the filling of the table, a request put at the free port, or the engine's part, with
the host's pause taken away or its list of actions unchanged. -/
theorem step_cases (s : State) :
    (∃ rest, s.host = .engineReset :: rest ∧ step s = .next { s with host := rest }.engineReset) ∨
    (∃ bytes rest, s.host = .fillTable bytes :: rest ∧ step s = .next ({ s with host := rest }.fillTable bytes)) ∨
    (∃ r rest, s.host = .present r :: rest ∧ s.port = none ∧
      step s = .next { s with host := rest, port := some r }) ∨
    (∃ acts, (s.host = acts ∨ s.host = .pause :: acts) ∧ step s = engineStep { s with host := acts }) := by
  unfold step fetch engineStep
  cases hh : s.host with
  | nil => exact .inr (.inr (.inr ⟨[], .inl rfl, by rw [show { s with host := [] } = s by rw [← hh]]⟩))
  | cons act rest =>
    cases act with
    | engineReset => exact .inl ⟨rest, rfl, rfl⟩
    | fillTable bytes => exact .inr (.inl ⟨bytes, rest, rfl, rfl⟩)
    | pause => exact .inr (.inr (.inr ⟨rest, .inr rfl, rfl⟩))
    | present r =>
      cases hp : s.port with
      | none => exact .inr (.inr (.inl ⟨r, rest, rfl, rfl, rfl⟩))
      | some q =>
        exact .inr (.inr (.inr ⟨.present r :: rest, .inl rfl, by
          rw [show { s with port := some q, host := .present r :: rest } = s by rw [← hp, ← hh]]⟩))

/-! ### The step, case by case -/

/-- The host asserts engine reset. -/
theorem step_engineReset {s : State} {rest : List HostAct} (h : s.host = .engineReset :: rest) :
    step s = .next { s with host := rest }.engineReset := by
  simp only [step, fetch, h, Fetched.outcome_moved]

/-- The host fills the table. -/
theorem step_fillTable {s : State} {bytes : List Byte} {rest : List HostAct} (h : s.host = .fillTable bytes :: rest) :
    step s = .next ({ s with host := rest }.fillTable bytes) := by
  simp only [step, fetch, h, Fetched.outcome_moved]

/-- The host puts a request at the free port. -/
theorem step_present_free {s : State} {r : HostReq} {rest : List HostAct} (h : s.host = .present r :: rest)
    (hp : s.port = none) : step s = .next { s with host := rest, port := some r } := by
  simp only [step, fetch, h, hp, Fetched.outcome_moved]

/-- The port is occupied: the engine takes the step. -/
theorem step_present_occupied {s : State} {r q : HostReq} {rest : List HostAct} (h : s.host = .present r :: rest)
    (hp : s.port = some q) : step s = engineStep s := by
  unfold step fetch engineStep
  rw [h]
  dsimp only
  rw [hp]

/-- The host leaves the step to the engine. -/
theorem step_pause {s : State} {rest : List HostAct} (h : s.host = .pause :: rest) :
    step s = engineStep { s with host := rest } := by
  unfold step fetch engineStep
  rw [h]

theorem step_nil {s : State} (h : s.host = []) : step s = engineStep s := step_of_no_host h

/-- FAULTED: nothing. -/
theorem engineStep_faulted {s : State} (hp : s.phase = .faulted) : engineStep s = .next s := by
  simp only [engineStep, engineFetch, hp, Fetched.outcome_moved]

/-- IDLE without a request: nothing. -/
theorem engineStep_idle {s : State} (hp : s.ready) (hq : s.port = none) : engineStep s = .next s := by
  simp only [State.ready] at hp
  simp only [engineStep, engineFetch, hp, hq, Fetched.outcome_moved]

/-- IDLE with a request: it is taken from the port and executed. -/
theorem engineStep_accept {s : State} {r : HostReq} {i : Instr} (hp : s.ready) (hq : s.port = some r)
    (hd : decodeRequest r = .ok i) : engineStep s = exec i { s with port := none } := by
  unfold engineStep engineFetch
  rw [show s.phase = .idle from hp]
  dsimp only
  rw [hq]
  dsimp only
  rw [hd, Fetched.outcome_issue]

/-- IDLE with a request of the reserved code: the fault. -/
theorem engineStep_reserved {s : State} {r : HostReq} (hp : s.ready) (hq : s.port = some r) (ho : r.op = 7) :
    engineStep s = .next ({ s with port := none }.raise .reservedOp 7) := by
  unfold engineStep engineFetch
  rw [show s.phase = .idle from hp]
  dsimp only
  rw [hq]
  simp [decodeRequest, ho, State.cutShort]

/-- RUN at an opcode position: the record is executed. -/
theorem engineStep_record {s : State} {i : Instr} {rest : List Byte} (hd : s.recordDue)
    (hdec : decodeRecord s.remaining = .ok (i, rest)) : engineStep s = exec i s := by
  unfold engineStep engineFetch
  rw [hd.1]
  dsimp only
  rw [hd.2]
  dsimp only
  rw [hdec]
  rfl

/-- RUN at an opcode position, the record cut short by the end of the table: the bounds fault. -/
theorem engineStep_cut {s : State} {e : DecodeError} (hd : s.recordDue) (hdec : decodeRecord s.remaining = .error e) :
    engineStep s = .next (s.cutShort e) := by
  unfold engineStep engineFetch
  rw [hd.1]
  dsimp only
  rw [hd.2]
  dsimp only
  rw [hdec]
  rfl

/-- RUN in `S_LEN`: the rest of the record. -/
theorem engineStep_length {s : State} (hp : s.phase = .run) (hi : s.istate = .sLen) :
    engineStep s = .next s.resumeLength := by
  simp only [engineStep, engineFetch, hp, hi, Fetched.outcome_moved]

/-- RUN in `S_ARG`: the rest of the record. -/
theorem engineStep_args {s : State} (hp : s.phase = .run) (hi : s.istate = .sArg) :
    engineStep s = .next s.resumeArgs := by
  simp only [engineStep, engineFetch, hp, hi, Fetched.outcome_moved]

/-- RUN in `S_HALT`: the operation ends. -/
theorem engineStep_halt {s : State} (hp : s.phase = .run) (hi : s.istate = .sHalt) : engineStep s = .next s.finish := by
  simp only [engineStep, engineFetch, hp, hi, Fetched.outcome_moved]

/-- What the engine's part of a step can be. -/
theorem engineStep_forms {s t : State} (h : engineStep s = .next t) :
    (t = s ∧ (s.phase = .faulted ∨ s.ready ∧ s.port = none)) ∨
    (∃ r i, s.ready ∧ s.port = some r ∧ decodeRequest r = .ok i ∧ exec i { s with port := none } = .next t) ∨
    (∃ r, s.ready ∧ s.port = some r ∧ r.op = 7 ∧ t = State.raise { s with port := none } .reservedOp 7) ∨
    (∃ i rest, s.recordDue ∧ decodeRecord s.remaining = .ok (i, rest) ∧ exec i s = .next t) ∨
    (∃ e, s.recordDue ∧ decodeRecord s.remaining = .error e ∧ t = s.cutShort e) ∨
    (s.phase = .run ∧ s.istate = .sLen ∧ t = s.resumeLength) ∨
    (s.phase = .run ∧ s.istate = .sArg ∧ t = s.resumeArgs) ∨
    (s.phase = .run ∧ s.istate = .sHalt ∧ t = s.finish) := by
  unfold engineStep at h
  rcases engineFetch_cases s with ⟨hp, e⟩ | ⟨hp, hq, e⟩ | ⟨r, i, hp, hq, hd, e⟩ | ⟨r, hp, hq, ho, e⟩ |
    ⟨i, rest, hd, hdec, e⟩ | ⟨er, hd, hdec, e⟩ | ⟨hp, hi, e⟩ | ⟨hp, hi, e⟩ | ⟨hp, hi, e⟩ <;> rw [e] at h
  · cases h; exact .inl ⟨rfl, .inl hp⟩
  · cases h; exact .inl ⟨rfl, .inr ⟨hp, hq⟩⟩
  · exact .inr (.inl ⟨r, i, hp, hq, hd, h⟩)
  · cases h; exact .inr (.inr (.inl ⟨r, hp, hq, ho, rfl⟩))
  · exact .inr (.inr (.inr (.inl ⟨i, rest, hd, hdec, h⟩)))
  · cases h; exact .inr (.inr (.inr (.inr (.inl ⟨er, hd, hdec, rfl⟩))))
  · cases h; exact .inr (.inr (.inr (.inr (.inr (.inl ⟨hp, hi, rfl⟩)))))
  · cases h; exact .inr (.inr (.inr (.inr (.inr (.inr (.inl ⟨hp, hi, rfl⟩))))))
  · cases h; exact .inr (.inr (.inr (.inr (.inr (.inr (.inr ⟨hp, hi, rfl⟩))))))

/-- The engine's part of a step always has a next state. -/
theorem engineStep_next (s : State) : ∃ t, engineStep s = .next t := by
  unfold engineStep
  rcases engineFetch_cases s with ⟨_, e⟩ | ⟨_, _, e⟩ | ⟨r, i, hp, _, hd, e⟩ | ⟨r, _, _, _, e⟩ | ⟨i, rest, hd, hdec, e⟩ |
    ⟨er, _, _, e⟩ | ⟨_, _, e⟩ | ⟨_, _, e⟩ | ⟨_, _, e⟩ <;> rw [e]
  · exact ⟨_, rfl⟩
  · exact ⟨_, rfl⟩
  · exact exec_of_ready (decodeRequest_isRequest hd) hp
  · exact ⟨_, rfl⟩
  · exact exec_of_due (decodeRecord_isRecord hdec) hd
  · exact ⟨_, rfl⟩
  · exact ⟨_, rfl⟩
  · exact ⟨_, rfl⟩
  · exact ⟨_, rfl⟩

/-! ### Runs -/

/-- A run that is over stays so, with the same end, until engine reset (R218). -/
theorem step_runEnd {s t : State} (hover : s.runEnd ≠ .notOver) (hr : ∀ rest, s.host ≠ .engineReset :: rest)
    (h : step s = .next t) : t.runEnd = s.runEnd := by
  cases hp : s.phase with
  | run => simp [State.runEnd, hp] at hover
  | faulted =>
    have ht : t.phase = .faulted := by
      rcases step_cases s with ⟨rest, hh, e⟩ | ⟨bytes, rest, hh, e⟩ | ⟨r, rest, hh, hq, e⟩ | ⟨acts, hh, e⟩
      · exact absurd hh (hr rest)
      · rw [e] at h; cases h; exact hp
      · rw [e] at h; cases h; exact hp
      · rw [e, engineStep_faulted (s := { s with host := acts }) hp] at h; cases h; exact hp
    simp only [State.runEnd, hp, ht]
  | idle =>
    cases hq : s.port with
    | some r =>
      cases hh : s.host with
      | nil => simp [State.runEnd, hp, hq, hh, requestToCome] at hover
      | cons act rest =>
        cases act with
        | engineReset => exact absurd hh (hr rest)
        | fillTable bytes =>
          rw [step_fillTable hh] at h; cases h
          simp [State.runEnd, hp, hq, hh, requestToCome]
        | pause => simp [State.runEnd, hp, hq, hh, requestToCome] at hover
        | present r => simp [State.runEnd, hp, hq, hh, requestToCome] at hover
    | none =>
      cases hh : s.host with
      | nil =>
        rw [step_nil hh, engineStep_idle hp hq] at h; cases h; rfl
      | cons act rest =>
        cases act with
        | engineReset => exact absurd hh (hr rest)
        | fillTable bytes =>
          rw [step_fillTable hh] at h; cases h
          simp [State.runEnd, hp, hq, hh, requestToCome]
        | pause =>
          rw [step_pause hh, engineStep_idle (s := { s with host := rest }) hp hq] at h; cases h
          simp [State.runEnd, hp, hq, hh, requestToCome]
        | present r =>
          rw [step_present_free hh hq] at h; cases h
          simp [State.runEnd, hp, hq, hh, requestToCome]

theorem run_zero (s : State) : Host.Core.run Sys2Proof.core 0 s = .next s := rfl

theorem core_run_succ (M : Host.Core) {s t : M.State} (h : M.step s = .next t) (n : Nat) :
    M.run (n + 1) s = M.run n t := by
  simp only [Host.Core.run, h]

/-- A run goes through its first step. -/
theorem run_succ {s t : State} (h : step s = .next t) (n : Nat) :
    Host.Core.run Sys2Proof.core (n + 1) s = Host.Core.run Sys2Proof.core n t :=
  core_run_succ Sys2Proof.core h n

end Sys2Proof.Machine
end

