-- ==== Sys2Proof/Tests/Slice0.lean ====
section
/-! SUPPORT. Tests/Slice0.lean: small tests, one step each, with the results that spec/95_test_vectors.md states (V, S and
P are its numbers), and a witness for the hypotheses of every statement. -/

namespace Sys2Proof.Tests

open Sys2Proof Sys2Proof.Machine

/-! ## Small states -/

/-- The defaults of 00_scope.md R6, with values of the tests' own for what R6 leaves open. -/
def cfg : Config where
  tWrLow := 1
  tWrHigh := 1
  tSettle := 150
  tRstLow := 5
  tRstHigh := 7
  pixW := 0
  pixH := 0
  casetOp := 0x2A
  pasetOp := 0x2B
  ramwrOp := 0x2C
  dataReset := 0x3C
  lineMap := { rst := 0, cs := 1, rs := 2, wr := 3, rd := 4, data := ⟨#[16, 17, 18, 19, 20, 21, 22, 23], rfl⟩ }

/-- The firmware's window span (43_addressing_pixel.md R154). -/
def cfg50 : Config := { cfg with pixW := 50, pixH := 50 }

/-- After engine reset, with a table. -/
def idle (bytes : List Byte) : State := (State.resetWith cfg).fillTable bytes

/-- An INIT runs and stands at index `cur` of the table. -/
def running (bytes : List Byte) (cur : Nat) : State := { idle bytes with phase := .run, istate := .sOpc, cur := cur }

/-- The controller is selected and `RS` has the level `rs`. -/
def selected (rs : Level) : State :=
  { idle [] with lines := { (idle []).lines with cs := .low, rs := rs } }

/-- The interpreter of `s` in the middle of a record `ENTD 0x28` with one argument. -/
def interrupted (s : State) (ist : IState) (cur : Nat) : State :=
  { s with istate := ist, cur := cur, dly := true, latches := { s.latches with opc := 0x28, len := 0x81, cnt := 1 } }

/-- A request at the port of an idle engine. -/
def asking (bytes : List Byte) (r : HostReq) : State := { idle bytes with port := some r }

/-- A fault was taken. -/
def faulted : State := (running [0x2A, 0x04, 0x00, 0x00] 2).raise .tableBounds 4

/-- The host does `a` next. -/
def host (s : State) (a : HostAct) : State := { s with host := [a] }

/-- The next state of an outcome. -/
def nextOf (o : Host.Outcome State Fault Refusal) (s : State) : State :=
  match o with
  | .next t => t
  | .fault _ => s
  | .refused _ => s

/-- The fault of an outcome. -/
def faultOf : Host.Outcome State Fault Refusal → Option Fault
  | .next _ => none
  | .fault f => some f
  | .refused _ => none

/-- What `exec` leaves. -/
def done (i : Instr) (s : State) : State := nextOf (exec i s) s

/-- What a step leaves. -/
def stepped (s : State) : State := nextOf (step s) s

/-- `W(v)` of 95_test_vectors.md, with the default holds. -/
def W (v : Byte) : List Event := [.data v, .pin .wr .low, .delay 1, .pin .wr .high, .delay 1]

/-- `C v`. -/
def C (v : Byte) : Xfer := { rs := .low, byte := v }

/-- `D v`. -/
def D (v : Byte) : Xfer := { rs := .high, byte := v }

/-! ## Well-formedness: an ill-formed term for each check (30_encoding.md R87) -/

theorem test_wf_ent_opcode_zero : (Instr.ent 0x00 [1]).wf = false := by decide
theorem test_wf_entd_opcode_zero : (Instr.entd 0x00 []).wf = false := by decide
theorem test_wf_ent_128_args : (Instr.ent 0x2A (List.replicate 128 0)).wf = false := by decide +kernel
theorem test_wf_entd_128_args : (Instr.entd 0x2A (List.replicate 128 0)).wf = false := by decide +kernel
theorem test_wf_ent_127_args : (Instr.ent 0x2A (List.replicate 127 0)).wf = true := by decide +kernel

/-! ## Decoding, from words written out bit by bit -/

/-- A request with an operand in every field (R80). -/
def full (op : BitVec 3) : HostReq where
  op := op
  v := 1
  opcode := 2
  args := [3]
  base := 4
  x0 := 5
  y0 := 6
  x1 := 7
  y1 := 8
  x := 9
  y := 10
  color := 11

/-- `op` codes of R81. -/
theorem test_decode_requests :
    [0b000, 0b001, 0b010, 0b011, 0b100, 0b101, 0b110, 0b111].map (fun op => (decodeRequest (full op)).toOption) =
    [some (.buswr 1), some (.cmd 2), some (.frame 2 [3]), some (.init 4), some (.setwin 5 6 7 8),
      some (.wrpix 9 10 11), some .rstp, none] := by decide

/-- V14: ENT with the length byte 0x00, then END. -/
theorem test_decode_ent_no_args :
    (decodeRecord [0b00101000, 0b00000000, 0b00000000]).toOption = some (.ent 0x28 [], [0]) := by decide

/-- V15, R79: an argument byte 0x00 does not end the table. -/
theorem test_decode_ent_zero_arg :
    (decodeRecord [0b00110110, 0b00000001, 0b00000000, 0b00000000]).toOption = some (.ent 0x36 [0], [0]) := by decide

/-- V48: ENTD with the length byte 0x84. -/
theorem test_decode_entd :
    (decodeRecord [0b00101010, 0b10000100, 0, 0, 0, 0b11101111]).toOption = some (.entd 0x2A [0, 0, 0, 0xEF], []) := by
  decide

/-- R74: END. -/
theorem test_decode_end : (decodeRecord [0b00000000, 0b11111111]).toOption = some (.endRec, [0xFF]) := by decide

/-- V40 to V44: length bytes. -/
theorem test_length_bytes :
    [0x00, 0x80, 0x7F, 0xFF, 0x84].map (fun l : Byte => ((lengthCount l).toNat, lengthDelay l)) =
      [(0, false), (0, true), (127, false), (127, true), (4, true)] := by decide

/-- V46 to V48. -/
theorem test_assemble :
    assemble [.ent 0xF7 [0x20], .entd 0x11 [], .entd 0x2A [0, 0, 0, 0xEF], .endRec] =
      some [0xF7, 0x01, 0x20, 0x11, 0x80, 0x2A, 0x84, 0, 0, 0, 0xEF, 0] := by decide

/-- V49, R87. -/
theorem test_assemble_refuses : assemble [.ent 0x00 []] = none := by decide

/-- V50: three records and the terminator, 9 bytes. -/
theorem test_parse_positions :
    parseTable 9 [0x01, 0x80, 0x3A, 0x01, 0x55, 0x36, 0x01, 0x48, 0x00] =
      some ([.entd 0x01 [], .ent 0x3A [0x55], .ent 0x36 [0x48]], 9) := by decide

/-- The rows of spec/opcode_table.json: `op` = 1 to 6 with operands 0; ENT and ENTD with `o` = 0x11 and `n` = 0; END. -/
theorem test_table_words :
    [decodeTableWord 8 1, decodeTableWord 8 2, decodeTableWord 8 3, decodeTableWord 8 4, decodeTableWord 8 5,
      decodeTableWord 8 6, decodeTableWord 16 0x1100, decodeTableWord 16 0x1180, decodeTableWord 8 0] =
    [some (.cmd 0), some (.frame 0 []), some (.init 0), some (.setwin 0 0 0 0), some (.wrpix 0 0 0), some .rstp,
      some (.ent 0x11 []), some (.entd 0x11 []), some .endRec] := by decide +kernel

/-- `op` = 0 of a three-bit word, and the reserved code. -/
theorem test_table_words_buswr : (decodeTableWord 3 0, decodeTableWord 8 7) = (some (.buswr 0), none) := by decide +kernel

/-- A placed word is the next step's: CMD 0 sends `C 00`; ENTD 0x11 sends `C 11`. -/
theorem test_fetch_word :
    ((stepped (State.reset.withFetchWord 8 1)).tx, (stepped (State.reset.withFetchWord 16 0x1180)).tx) =
      ([C 0x00], [C 0x11]) := by decide +kernel

/-! ## Operands -/

/-- V45. -/
theorem test_be16 :
    [0x0000, 0x00EF, 0x013F, 0xF777, 0xFFFF].map be16 =
      [[0x00, 0x00], [0x00, 0xEF], [0x01, 0x3F], [0xF7, 0x77], [0xFF, 0xFF]] := by decide

/-- V32's two sums. -/
theorem test_addSpan : (addSpan 0xFFF0 50, addSpan 0xFFFF 50) = (0x0022, 0x0031) := by decide

/-- R27: 0x81 is high on the pins of `D[7]` and `D[0]` only. -/
theorem test_data_port :
    (((idle []).portWrite 0x81).dataPort.filter fun p => p.2 == .high).map Prod.fst = [16, 23] := by decide

/-- R37 at the control port: five pins, all high. -/
theorem test_control_port : (idle []).controlPort = [(0, .high), (1, .high), (2, .high), (3, .high), (4, .high)] := by
  decide

/-- R6, R101: the default holds are legal. -/
theorem test_standard_holds : Config.standard.wf := by decide

/-! ## The requests -/

/-- V1: BUSWR in the reset state: the pulse occurs and nothing is latched. -/
theorem test_buswr_unselected :
    let t := done (.buswr 0x5A) (idle [])
    (t.ev, t.tx, t.lines.cs, t.lines.rs, t.lines.wr, t.lines.d) = (W 0x5A, [], .high, .high, .high, 0x5A) := by decide

/-- V3, and V2 with `RS` = 0. -/
theorem test_buswr_selected :
    ((done (.buswr 0xF7) (selected .high)).tx, (done (.buswr 0x2C) (selected .low)).tx) = ([D 0xF7], [C 0x2C]) := by decide

/-- V6. -/
theorem test_cmd :
    let t := done (.cmd 0x2C) (idle [])
    (t.ev, t.tx, t.lines.cs, t.lines.rs, t.lines.wr, t.lines.d) =
      (.pin .cs .low :: .pin .rs .low :: W 0x2C, [C 0x2C], .low, .low, .high, 0x2C) := by decide

/-- V9. -/
theorem test_frame :
    let t := done (.frame 0x00 [0x00, 0xFF]) (idle [])
    (t.ev, t.tx, t.lines.rs, t.lines.d) =
      ([.pin .cs .low, .pin .rs .low] ++ W 0x00 ++ [.pin .rs .high] ++ W 0x00 ++ W 0xFF, [C 0x00, D 0x00, D 0xFF],
        .high, 0xFF) := by decide

/-- V7: no arguments, `RS` is still written to 1. -/
theorem test_frame_no_args :
    let t := done (.frame 0x2C []) (idle [])
    (t.ev, t.tx, t.lines.rs) = ([.pin .cs .low, .pin .rs .low] ++ W 0x2C ++ [.pin .rs .high], [C 0x2C], .high) := by decide

/-- V27: `x0 > x1` is sent unchanged. -/
theorem test_setwin :
    let t := done (.setwin 0x1234 0xABCD 0x00FF 0xFF00) (idle [])
    (t.tx, t.lines.rs, t.lines.d, t.phase) =
      ([C 0x2A, D 0x12, D 0x34, D 0x00, D 0xFF, C 0x2B, D 0xAB, D 0xCD, D 0xFF, D 0x00], .high, 0x00, .idle) := by decide

/-- S3, V30. -/
theorem test_wrpix :
    let t := done (.wrpix 50 50 0xF777) (idle [])
    (t.tx, t.ev.length, leastDuration t.ev, t.lines.d) =
      ([C 0x2A, D 0x00, D 0x32, D 0x00, D 0x32, C 0x2B, D 0x00, D 0x32, D 0x00, D 0x32, C 0x2C, D 0xF7, D 0x77], 74, 26,
        0x77) := by decide

/-- V32: the window corner wraps. -/
theorem test_wrpix_wraps :
    (done (.wrpix 0xFFF0 0xFFFF 0x0001) { idle [] with cfg := cfg50 }).tx =
      [C 0x2A, D 0xFF, D 0xF0, D 0x00, D 0x22, C 0x2B, D 0xFF, D 0xFF, D 0x00, D 0x31, C 0x2C, D 0x00, D 0x01] := by decide

/-- V34. -/
theorem test_rstp :
    let t := done .rstp { selected .low with lastCmd := some 0x2C }
    (t.ev, t.tx, t.lines, t.lastCmd) =
      ([.pin .rst .low, .delay 5, .pin .rst .high, .delay 7], [], (selected .low).lines, none) := by decide

/-- V18: `INIT 3` starts at index 3; nothing is sent or read yet, `BUSY` is 1. -/
theorem test_init :
    let t := done (.init 3) (idle [0xAA, 0xBB, 0x00, 0x29, 0x00, 0x00])
    (t.cur, t.istate, t.busy, t.ev, t.rdLog) = (3, .sOpc, true, [], []) := by decide

/-! ## The table records -/

/-- S1: the record `F7 01 20`. -/
theorem test_ent :
    let t := stepped (running [0xF7, 0x01, 0x20, 0x00] 0)
    (t.ev, t.tx, t.rdLog, t.cur) =
      ([.pin .cs .low, .pin .rs .low] ++ W 0xF7 ++ [.pin .rs .high] ++ W 0x20, [C 0xF7, D 0x20], [0, 1, 2], 3) := by decide

/-- V20: a record cut short sends nothing, not even its opcode. -/
theorem test_ent_cut :
    let t := stepped (running [0x2A, 0x04, 0x00, 0x00] 0)
    (t.ev, t.tx, t.rdLog, t.cur) = ([.fault .tableBounds 4], [], [0, 1], 2) ∧
      (t.fcause, t.faddr, t.phase, t.lines.cs) = (1, 4, .faulted, .high) := by decide

/-- S2, V39: the record `11 80`; the engine is still busy. -/
theorem test_entd :
    let t := stepped (running [0x11, 0x80, 0x29, 0x80, 0x00] 0)
    (t.ev, t.tx, t.cur, t.status, t.lines.rs) =
      ([.pin .cs .low, .pin .rs .low] ++ W 0x11 ++ [.pin .rs .high, .delay 150], [C 0x11], 2, 0b01, .high) := by decide

/-- V19: length byte 0xBB, 59 arguments past the end. -/
theorem test_entd_cut :
    let t := stepped (running [0xAA, 0xBB, 0x00, 0x29, 0x00, 0x00] 0)
    (t.ev, t.rdLog, t.cur, t.faddr) = ([.fault .tableBounds 6], [0, 1], 2, 6) := by decide

/-- V13: the terminator at once. -/
theorem test_end :
    let t := stepped (running [0x00] 0)
    (t.ev, t.tx, t.rdLog, t.cur) = ([], [], [0], 0) ∧
      (t.istate, t.phase, t.lines) = (.sHalt, .idle, (idle []).lines) := by decide

/-! ## Faults, reset, host -/

/-- R128, R129: from `S_LEN` and from `S_ARG` the rest of the record is read and its frame sent; R132: `S_HALT`. -/
theorem test_middle_of_record :
    let s := running [0x28, 0x81, 0x07, 0x00] 0
    let t := stepped (interrupted s .sLen 1)
    let u := stepped (interrupted s .sArg 2)
    (t.tx, t.rdLog, t.cur, t.istate, t.ev) =
      ([C 0x28, D 0x07], [1, 2], 3, .sOpc,
        [.pin .cs .low, .pin .rs .low] ++ W 0x28 ++ [.pin .rs .high] ++ W 0x07 ++ [.delay 150]) ∧
    (u.tx, u.rdLog, u.cur, u.ev) = (t.tx, [2], 3, t.ev) ∧ (stepped (interrupted s .sHalt 3)).phase = .idle := by decide

/-- V22 and V23. -/
theorem test_bounds :
    let t := stepped (running [0x28] 0)
    let u := stepped (running [0x00] 5)
    (t.rdLog, t.cur, t.faddr, t.fcause) = ([0], 1, 1, 1) ∧ (u.rdLog, u.cur, u.faddr, u.fcause) = ([], 5, 5, 1) := by decide

/-- V21: after its one record the table has no terminator: the lines stay as the record left them. -/
theorem test_no_terminator :
    let t := stepped { running [0x28, 0x00] 2 with lines := (selected .high).lines }
    (t.ev, t.faddr, t.rdLog, t.status) = ([.fault .tableBounds 2], 2, [], 0b10) ∧ t.lines = (selected .high).lines := by
  decide

/-- V35. -/
theorem test_reserved_op :
    let t := stepped (asking [] { op := 7 })
    (t.ev, t.fcause, t.faddr, t.phase, t.lines) = ([.fault .reservedOp 7], 2, 7, .faulted, (idle []).lines) := by decide

/-- V36: a request waits while INIT runs. -/
theorem test_request_waits :
    let t := stepped { running [0x11, 0x80, 0x00] 0 with port := some { op := 1, opcode := 0x29 } }
    (t.tx, t.port) = ([C 0x11], some { op := 1, opcode := 0x29 }) := by decide

/-- V37: after a fault a request is not accepted. -/
theorem test_faulted_waits :
    stepped { faulted with port := some { op := 1 } } = { faulted with port := some { op := 1 } } := by decide

/-- V38. -/
theorem test_engine_reset :
    let t := stepped (host faulted .engineReset)
    (t.lines.cs, t.phase, t.fcause, t.faddr) = (.high, .idle, 0, 0) ∧ (t.ev, t.tx, t.rdLog) = ([], [], []) := by decide

/-- R188, U5: a meaning asked for out of turn has no step. -/
theorem test_out_of_turn :
    (faultOf (exec (.cmd 0) faulted), faultOf (exec .endRec (idle [0]))) = (some .notReady, some .noRecordDue) := by decide

/-- R51: filling the table. -/
theorem test_fill_table :
    let t := stepped (host (idle []) (.fillTable [0x11, 0x00, 0x80]))
    (t.table, t.tableLen, t.table.bytes 0 3) = ([(0, 0x11), (2, 0x80)], 3, [0x11, 0x00, 0x80]) := by decide

/-- R35: the controller's view of CMD, FRAME and BUSWR: its register writes in the events. -/
theorem test_register_writes :
    let t := done (.buswr 0x77) (done (.frame 0x2C [0xF7]) (done (.cmd 0x11) (idle [])))
    (registerWrites cfg t.ev, t.tx) = ([(0x11, []), (0x2C, [0xF7, 0x77])], [C 0x11, C 0x2C, D 0xF7, D 0x77]) := by
  decide +kernel

/-- R35, R166: after RSTP a data byte goes to `TX` and to no register write. -/
theorem test_register_writes_reset :
    let t := done (.buswr 0x77) (done .rstp (done (.frame 0x2C [0xF7]) (idle [])))
    (registerWrites cfg t.ev, t.tx, t.lastCmd) = ([(0x2C, [0xF7])], [C 0x2C, D 0xF7, D 0x77], none) := by
  decide +kernel

/-- R218: a run is not over while an INIT runs or a request waits or is to come; it is over in IDLE with only a pause or a
filling left, and by a fault whatever waits. -/
theorem test_run_end :
    [running [0] 0, asking [0] { op := 6 }, host (idle []) (.present { op := 6 }), host (idle []) .pause,
      host (idle []) (.fillTable [0]), { faulted with port := some { op := 6 } }].map State.runEnd =
      [.notOver, .notOver, .notOver, .good, .good, .byFault] := by decide

/-- R206, R209, R218. -/
theorem test_duties :
    (windowInOrder 0 0 239 319, windowInOrder 1 0 0 0, (host (running [0] 0) (.fillTable [])).hostDutiful,
      (idle []).goodEnd, faulted.goodEnd, faulted.runOver, (running [0] 0).runOver) =
      (true, false, false, true, false, true, false) := by decide

/-! ## Witnesses: states and operands that meet the hypotheses of the statements together -/

theorem witness_DecodeOfEncode :
    (Instr.ent 0xFF (List.replicate 127 0)).wf = true ∧ (Instr.entd 0x01 []).wf = true ∧ Instr.endRec.wf = true := by
  decide +kernel

theorem witness_RecordIsSelfDelimiting :
    (Instr.entd 0x2A [0, 0xEF]).wf = true ∧ (Instr.entd 0x2A [0, 0xEF]).isRequest = false := by decide

theorem witness_RecordLengthFromItsFirstTwoBytes :
    ((0x01 : Byte) ≠ 0 ∧ ([] : List Byte).length = ((0x80 : Byte) &&& 0x7F).toNat) ∧
    ((0xFF : Byte) ≠ 0 ∧ (List.replicate 127 (0 : Byte)).length = ((0x7F : Byte) &&& 0x7F).toNat) := by decide +kernel

theorem witness_RequestSelectedByOp :
    List.map (fun op : BitVec 3 => (({ op := op } : HostReq).op == op)) [0, 1, 2, 3, 4, 5, 6, 7] =
      List.replicate 8 true := by decide

/-- The three shapes of a cut record, each refused. -/
theorem witness_OnlyCutRecordsAreRefused :
    decodeRecord [] = .error .noOpcode ∧ decodeRecord [0x28] = .error (.noLength 0x28) ∧
    decodeRecord [0x28, 0x82, 0] = .error (.noArgs 0x28 0x82) := ⟨rfl, rfl, rfl⟩

theorem witness_AssemblerBytesAndRefusals :
    ((0x01 : Byte) ≠ 0 ∧ (List.replicate 127 (0 : Byte)).length ≤ 127) ∧
    127 < (List.replicate 128 (0 : Byte)).length := by decide +kernel

/-- A table of two records, used by the statements about whole tables. -/
def records2 : List Instr := [.ent 0x36 [0x00], .entd 0x11 []]

theorem witness_TableReadsBack : ∀ i ∈ records2, isEntry i = true ∧ i.wf = true := by decide

theorem witness_TableCounts : ∀ i ∈ records2, isEntry i = true ∧ i.wf = true := by decide

theorem witness_OtherBusWidthsRefused : (16 : Nat) ≠ 8 ∧ (7 : Nat) ≠ 8 ∧ (8 : Nat) = 8 := by decide

/-- Every result statement of a request has `s.ready` (and the code of the request) as its hypothesis. -/
theorem witness_requests_ready :
    (idle []).ready ∧ (selected .low).ready ∧ (selected .high).ready ∧ (selected .low).lines.cs = .low ∧
    (idle []).lines.cs = .high := by decide

theorem witness_WrpixSendsWindowThenColour :
    let s : State := { idle [] with cfg := cfg50 }
    s.ready ∧ (0x0022 : Half).toNat = ((0xFFF0 : Half).toNat + s.cfg.pixW) % 65536 ∧
      (0x0031 : Half).toNat = ((0xFFFF : Half).toNat + s.cfg.pixH) % 65536 := by decide

/-- A record that just fits, with one argument and with none. -/
theorem witness_EntSendsFrame :
    ((running [0xF7, 0x01, 0x20] 0).recordDue ∧ (0xF7 : Byte) ≠ 0 ∧ [(0x20 : Byte)].length ≤ 127 ∧
      (running [0xF7, 0x01, 0x20] 0).cur + 2 + [(0x20 : Byte)].length ≤ (running [0xF7, 0x01, 0x20] 0).tableLen) ∧
    (running [0xF7, 0x01] 0).tableLen < (running [0xF7, 0x01] 0).cur + 2 + [(0x20 : Byte)].length := by decide

theorem witness_EntdSendsFrameThenSettles :
    ((running [0x11, 0x80] 0).recordDue ∧ (0x11 : Byte) ≠ 0 ∧ ([] : List Byte).length ≤ 127 ∧
      (running [0x11, 0x80] 0).cur + 2 + ([] : List Byte).length ≤ (running [0x11, 0x80] 0).tableLen) ∧
    (running [0x11] 0).tableLen < (running [0x11] 0).cur + 2 + ([] : List Byte).length := by decide

theorem witness_EndHalts : (running [0x00] 0).recordDue ∧ (running [0x00] 0).cur < (running [0x00] 0).tableLen := by decide

/-- The three places where a record of one argument can be cut: no byte left, one byte left, two bytes left. -/
theorem witness_RecordPastTableEndTraps :
    (running [0x28, 0x01] 2).recordDue ∧ (running [0x28, 0x01] 2).tableLen < 2 + 2 + 1 ∧
    (running [0x28, 0x01] 1).recordDue ∧ (running [0x28, 0x01] 1).tableLen < 1 + 2 + 1 ∧
    (running [0x28, 0x01] 0).recordDue ∧ (running [0x28, 0x01] 0).tableLen < 0 + 2 + 1 := by decide

/-- Each of the five clauses, for its own numbers; BUSWR with the controller selected and not. -/
theorem witness_RequestCounts :
    (idle []).ready ∧
    (∃ v, Instr.buswr 1 = .buswr v ∧ 5 = 5 ∧ 0 = (if (idle []).lines.cs = .low then 1 else 0) ∧ 1 = 1 ∧ 0 = 0) ∧
    (∃ v, Instr.buswr 1 = .buswr v ∧ 5 = 5 ∧ 1 = (if (selected .low).lines.cs = .low then 1 else 0) ∧ 1 = 1 ∧ 0 = 0) ∧
    (∃ o, Instr.cmd 2 = .cmd o ∧ 7 = 7 ∧ 1 = 1 ∧ 1 = 1 ∧ 1 = 1) ∧
    (∃ o args, Instr.frame 2 [] = .frame o args ∧ 8 = 8 + 5 * args.length ∧ 1 = args.length + 1) ∧
    (∃ o args, Instr.frame 2 [3, 4] = .frame o args ∧ 18 = 8 + 5 * args.length ∧ 3 = args.length + 1) ∧
    (∃ a b c d, Instr.setwin 1 2 3 4 = .setwin a b c d ∧ 56 = 56 ∧ 10 = 10) ∧
    ∃ a b c, Instr.wrpix 1 2 3 = .wrpix a b c ∧ 74 = 74 ∧ 13 = 13 :=
  ⟨rfl, ⟨1, rfl, rfl, rfl, rfl, rfl⟩, ⟨1, rfl, rfl, rfl, rfl, rfl⟩, ⟨2, rfl, rfl, rfl, rfl, rfl⟩, ⟨2, [], rfl, rfl, rfl⟩,
    ⟨2, [3, 4], rfl, rfl, rfl⟩, ⟨1, 2, 3, 4, rfl, rfl, rfl⟩, ⟨1, 2, 3, rfl, rfl, rfl⟩⟩

theorem witness_RegisterSelectChangesOnce :
    exec (.cmd 0x29) (idle []) = .next (done (.cmd 0x29) (idle [])) ∧
    exec (.frame 0x29 [1]) (idle []) = .next (done (.frame 0x29 [1]) (idle [])) := ⟨rfl, rfl⟩

theorem witness_FrameTransactions :
    exec (.frame 0x29 [1, 2]) (idle []) = .next (done (.frame 0x29 [1, 2]) (idle [])) := rfl

theorem witness_StepExecutesAcceptedRequest :
    let s := asking [] { op := 1, opcode := 0x29 }
    s.host = [] ∧ s.ready ∧ s.port = some { op := 1, opcode := 0x29 } ∧
      decodeRequest { op := 1, opcode := 0x29 } = .ok (.cmd 0x29) := ⟨rfl, rfl, rfl, rfl⟩

theorem witness_StepExecutesRecordAtCursor :
    let s := running [0xF7, 0x01, 0x20, 0x00] 0
    s.host = [] ∧ s.recordDue ∧ decodeRecord s.remaining = .ok (.ent 0xF7 [0x20], [0x00]) := ⟨rfl, ⟨rfl, rfl⟩, rfl⟩

/-- Each of the four clauses. -/
theorem witness_HostActions :
    ((host (idle []) (.present { op := 6 })).port = none) ∧
    ((host (asking [] { op := 6 }) (.present { op := 1 })).port = some { op := 6 } ∧
      step (asking [] { op := 6 }) = .next (stepped (asking [] { op := 6 }))) ∧
    step (idle []) = .next (idle []) ∧
    (host (idle []) (.fillTable [0x00])).host = [.fillTable [0x00]] := ⟨rfl, ⟨rfl, rfl⟩, rfl, rfl⟩

theorem witness_EngineResetRestoresResetValues :
    (host (running [0] 0) .engineReset).host = .engineReset :: [] ∧
    (host faulted .engineReset).host = .engineReset :: [] := ⟨rfl, rfl⟩

theorem witness_IdleEngineWaits : (idle []).host = [] ∧ (idle []).ready ∧ (idle []).port = none := ⟨rfl, rfl, rfl⟩

theorem witness_OutOfTurnStops :
    ((Instr.cmd 0).isRequest = true ∧ ¬ (running [] 0).ready ∧ ¬ faulted.ready) ∧
    (Instr.endRec.isRequest = false ∧ ¬ (idle []).recordDue ∧
      ¬ ({ running [] 0 with istate := .sArg } : State).recordDue) := by decide

theorem witness_UnreadyEngineKeepsRequest :
    let s : State := { faulted with port := some { op := 1 } }
    ¬ s.ready ∧ s.port = some { op := 1 } ∧ step s = .next (stepped s) := ⟨by decide, rfl, rfl⟩

theorem witness_ReservedOpTaken :
    let s := asking [] { op := 7 }
    s.host = [] ∧ s.ready ∧ s.port = some { op := 7 } ∧ ({ op := 7 } : HostReq).op = 7 := ⟨rfl, rfl, rfl, rfl⟩

/-- Each of the three clauses, the first at `CUR = TABLE_LEN` and beyond it, the third one byte short. -/
theorem witness_TableBoundsTaken :
    ((running [0x28] 1).host = [] ∧ (running [0x28] 1).recordDue ∧ (running [0x28] 1).tableLen ≤ (running [0x28] 1).cur ∧
      (running [0x28] 5).tableLen ≤ (running [0x28] 5).cur) ∧
    ((0x28 : Byte) ≠ 0 ∧ (running [0x28] 0).remaining = [0x28]) ∧
    (running [0x28, 0x82, 0x01] 0).remaining = 0x28 :: 0x82 :: [0x01] ∧
      [(0x01 : Byte)].length < ((0x82 : Byte) &&& 0x7F).toNat := by decide

theorem witness_FaultedIsLeftByResetOnly :
    faulted.phase = .faulted ∧ (∀ rest, (host faulted .pause).host ≠ .engineReset :: rest) ∧
    (host faulted .engineReset).host = .engineReset :: [] := ⟨rfl, fun _ => nofun, rfl⟩

theorem witness_FaultedForEver : faulted.phase = .faulted ∧ faulted.host = [] := ⟨rfl, rfl⟩

theorem witness_RequestsRaiseNothing :
    (Instr.setwin 1 1 0 0).isRequest = true ∧ (∀ base, Instr.setwin 1 1 0 0 ≠ .init base) ∧ (idle []).ready :=
  ⟨rfl, fun _ => nofun, rfl⟩

/-- A table with two records, and one with none. -/
theorem witness_InitPerformsWholeTable :
    let s := asking [0x36, 0x01, 0x00, 0x11, 0x80, 0x00] { op := 3, base := 0 }
    s.host = [] ∧ s.ready ∧ s.port = some { op := 3, base := 0 } ∧
      (∀ i ∈ records2, isEntry i = true ∧ i.wf = true) ∧ 0 + (tableBytes records2).length ≤ s.tableLen ∧
      s.table.bytes 0 (tableBytes records2).length = tableBytes records2 ∧
      5 + (tableBytes []).length ≤ s.tableLen ∧ s.table.bytes 5 (tableBytes []).length = tableBytes [] := by decide

/-- The end of the table at an opcode byte, at a length byte, and within the arguments; `base` at and past the end. -/
theorem witness_InitOnCutTableFaultsPrecisely :
    let s := asking [0x36, 0x01, 0x00, 0x11, 0x80, 0x28, 0x02] { op := 3, base := 0 }
    let u := asking [0x36, 0x01, 0x00, 0x11, 0x80, 0x28] { op := 3, base := 0 }
    let v := asking [0x36, 0x01, 0x00, 0x11, 0x80] { op := 3, base := 0 }
    (s.host = [] ∧ s.ready ∧ s.port = some { op := 3, base := 0 } ∧ ∀ i ∈ records2, isEntry i = true ∧ i.wf = true) ∧
    s.table.bytes 0 (s.tableLen - 0) = records2.flatMap recordBytes ++ [0x28, 0x02] ∧
    decodeRecord [0x28, 0x02] = .error (.noArgs 0x28 0x02) ∧
    u.table.bytes 0 (u.tableLen - 0) = records2.flatMap recordBytes ++ [0x28] ∧
    decodeRecord [0x28] = .error (.noLength 0x28) ∧
    v.table.bytes 0 (v.tableLen - 0) = records2.flatMap recordBytes ++ [] ∧ decodeRecord [] = .error .noOpcode ∧
    v.table.bytes 5 (v.tableLen - 5) = List.flatMap recordBytes [] ++ [] ∧
    v.table.bytes 9 (v.tableLen - 9) = List.flatMap recordBytes [] ++ [] :=
  ⟨by decide, by decide, rfl, by decide, rfl, by decide, rfl, by decide, by decide⟩

theorem witness_InitOnWellFormedTableHalts :
    let s := asking [0x36, 0x01, 0x00, 0x11, 0x80, 0x00] { op := 3, base := 3 }
    s.host = [] ∧ s.ready ∧ s.port = some { op := 3, base := 3 } ∧ s.tableWellFormed 3 = true ∧
      s.tableWellFormed 6 = false := by decide

/-- A state that meets the invariant, in each phase. -/
theorem witness_InvariantKept :
    (idle [0]).Inv ∧ (running [0] 0).Inv ∧ faulted.Inv ∧ step (running [0] 0) = .next (stepped (running [0] 0)) := by
  refine ⟨?_, ?_, ?_, rfl⟩ <;> constructor <;> decide

/-- Each clause: `S_OPC` at an opcode and at the sentinel, `S_LEN` with a byte and without, `S_ARG` with its arguments and
without, `S_HALT`. -/
theorem witness_StepInEveryState :
    let s := running [0x28, 0x81, 0x07, 0x00] 0
    (s.host = [] ∧ s.phase = .run ∧ s.istate = .sOpc ∧ s.remaining = 0x28 :: [0x81, 0x07, 0x00] ∧
      (running [0x00] 0).remaining = 0x00 :: []) ∧
    ((interrupted s .sLen 1).istate = .sLen ∧ (interrupted s .sLen 1).remaining = 0x81 :: [0x07, 0x00] ∧
      (interrupted s .sLen 4).tableLen ≤ (interrupted s .sLen 4).cur) ∧
    ((interrupted s .sArg 2).istate = .sArg ∧
      (interrupted s .sArg 2).cur + (interrupted s .sArg 2).latches.cnt.toNat ≤ (interrupted s .sArg 2).tableLen ∧
      (interrupted s .sArg 3).cur + (interrupted s .sArg 3).latches.cnt.toNat = (interrupted s .sArg 3).tableLen ∧
      (interrupted s .sArg 4).tableLen < (interrupted s .sArg 4).cur + (interrupted s .sArg 4).latches.cnt.toNat) ∧
    (interrupted s .sHalt 3).istate = .sHalt := by decide

/-- A step of the engine with a selected controller that adds to every trace. -/
def busy : State := { running [0xF7, 0x01, 0x20, 0x00] 0 with lines := (selected .high).lines }

theorem witness_ChipSelectNeverDeasserted :
    step busy = .next (stepped busy) ∧ busy.lines.cs = .low ∧ (∀ rest, busy.host ≠ .engineReset :: rest) :=
  ⟨rfl, rfl, fun _ => nofun⟩

theorem witness_ReadStrobeNeverWritten :
    exec (.ent 0xF7 [0x20]) busy = .next (done (.ent 0xF7 [0x20]) busy) ∧ Instr.ent 0xF7 [0x20] ≠ .rstp ∧
    exec .rstp (idle []) = .next (done .rstp (idle [])) := ⟨rfl, nofun, rfl⟩

theorem witness_ParametersNeverChange : step busy = .next (stepped busy) := rfl

theorem witness_EngineNeverWritesTable :
    exec (.ent 0xF7 [0x20]) busy = .next (done (.ent 0xF7 [0x20]) busy) ∧
    (∀ bytes rest, busy.host ≠ .fillTable bytes :: rest) ∧ step busy = .next (stepped busy) :=
  ⟨rfl, fun _ _ => nofun, rfl⟩

/-- Three bytes are read, up to index 2 of 4. -/
theorem witness_ReadsStayInTable :
    step busy = .next (stepped busy) ∧ (∀ rest, busy.host ≠ .engineReset :: rest) ∧
    (stepped busy).rdLog = busy.rdLog ++ List.range' busy.cur 3 ∧ busy.cur + 3 ≤ busy.tableLen :=
  ⟨rfl, fun _ => nofun, rfl, by decide⟩

theorem witness_TracesOnlyGrow :
    step busy = .next (stepped busy) ∧ (∀ rest, busy.host ≠ .engineReset :: rest) ∧ busy.tx ≠ (stepped busy).tx :=
  ⟨rfl, fun _ => nofun, by decide⟩

theorem witness_LatchesNotReadBeforeWritten :
    (busy.phase = .run → busy.istate = .sOpc) ∧ (faulted.phase = .run → faulted.istate = .sOpc) ∧
    step busy = .next (stepped busy) := ⟨fun _ => rfl, nofun, rfl⟩

/-- A step that stays in IDLE, and one that starts an INIT. -/
theorem witness_OnlyLinesPersist :
    let s := asking [] { op := 4 }
    let u := asking [0x00] { op := 3 }
    (s.ready ∧ step s = .next (stepped s)) ∧ u.ready ∧ step u = .next (stepped u) ∧ (stepped u).phase = .run :=
  ⟨⟨rfl, rfl⟩, rfl, rfl, rfl⟩

theorem witness_ControllerNeverObserved : step busy = .next (stepped busy) := rfl

/-- Each clause: a BUSWR after a frame, after WRPIX and after RSTP. -/
theorem witness_BuswrJoinsMostRecentCommand :
    let s : State := { idle [] with cfg := cfg50 }
    let a := done (.frame 0x2C [0xF7]) (idle [])
    (a.ready ∧ a.lines.cs = .low ∧ a.lines.rs = .high ∧ a.lastCmd = some 0x2C) ∧
    (0x0022 : Half).toNat = ((0xFFF0 : Half).toNat + s.cfg.pixW) % 65536 ∧
    (0x0031 : Half).toNat = ((0xFFFF : Half).toNat + s.cfg.pixH) % 65536 ∧
    exec (.wrpix 0xFFF0 0xFFFF 0xF777) s = .next (done (.wrpix 0xFFF0 0xFFFF 0xF777) s) ∧
    (selected .high).lines.cs = .low ∧ (selected .high).lines.rs = .high ∧
    exec .rstp (selected .high) = .next (done .rstp (selected .high)) :=
  ⟨⟨rfl, rfl, rfl, rfl⟩, by decide, by decide, rfl, rfl, rfl, rfl⟩

end Sys2Proof.Tests
end

section
/-! PROOFS. The interpreter resumed from the middle of a record (42_init_table.md R127 to R129, R135): a record taken
whole ends where the same record taken state by state does. Settles O50. -/

namespace Sys2Proof.Machine

/-! ### The length byte as masks and shifts (30_encoding.md R73) -/

theorem lengthCount_eq_mask (l : Byte) : lengthCount l = BitVec.ofNat 7 (l &&& 0x7F).toNat := by
  revert l; decide

theorem lengthDelay_eq_shift (l : Byte) : lengthDelay l = decide (l >>> 7 = 1) := by
  revert l; decide

/-! ### What the interpreter can still read -/

theorem State.remaining_length (s : State) : s.remaining.length = s.tableLen - s.cur := by
  simp [State.remaining]

/-- There is a byte to read exactly below `TABLE_LEN`; it is the byte at the cursor. -/
theorem State.remaining_eq_cons {s : State} {b : Byte} {more : List Byte} (h : s.remaining = b :: more) :
    s.cur < s.tableLen ∧ s.table.read s.cur = b ∧ s.table.bytes (s.cur + 1) (s.tableLen - (s.cur + 1)) = more := by
  have hlt : s.cur < s.tableLen := by
    have hlen := s.remaining_length
    rw [h, List.length_cons] at hlen
    omega
  rw [State.remaining, show s.tableLen - s.cur = (s.tableLen - (s.cur + 1)) + 1 by omega, Memory.bytes] at h
  exact ⟨hlt, List.cons.inj h⟩

theorem State.remaining_eq_nil {s : State} (h : s.remaining = []) : s.tableLen ≤ s.cur := by
  have hlen := s.remaining_length
  rw [h, List.length_nil] at hlen
  omega

/-- The first `n` bytes of what can still be read are the `n` bytes at the cursor, if so many are left. -/
theorem State.remaining_take {s : State} {n : Nat} (h : n ≤ s.tableLen - s.cur) :
    s.remaining.take n = s.table.bytes s.cur n := by
  rw [State.remaining, show s.tableLen - s.cur = n + (s.tableLen - s.cur - n) by omega, Memory.bytes_add]
  exact List.take_left' (Memory.length_bytes ..)

/-- Bytes that head what can still be read are the bytes at the cursor. -/
theorem State.bytes_at_cur {s : State} {args rest : List Byte} (h : s.remaining = args ++ rest) :
    s.table.bytes s.cur args.length = args := by
  have hfit : args.length ≤ s.tableLen - s.cur := by
    rw [← s.remaining_length, h, List.length_append]
    omega
  rw [← State.remaining_take hfit, h, List.take_left]

theorem State.remaining_takeOpcode {s : State} {op : Byte} {more : List Byte} (hop : op ≠ 0#8)
    (h : s.remaining = op :: more) : (s.takeOpcode op).remaining = more := by
  rw [State.takeOpcode_entry s hop]
  exact (State.remaining_eq_cons h).2.2

theorem State.remaining_takeLength {s : State} {l : Byte} {more : List Byte} (h : s.remaining = l :: more) :
    (s.takeLength l).remaining = more := by
  rw [State.takeLength_eq]
  exact (State.remaining_eq_cons h).2.2

/-! ### `S_LEN` and `S_ARG`, by what is left of the table (R128, R129, R135) -/

theorem State.resumeLength_of_end {s : State} (h : s.tableLen ≤ s.cur) :
    s.resumeLength = s.raise .tableBounds s.cur := if_pos h

theorem State.resumeLength_of_byte {s : State} {l : Byte} {more : List Byte} (h : s.remaining = l :: more) :
    s.resumeLength = (s.takeLength l).resumeArgs := by
  obtain ⟨hlt, hread, -⟩ := State.remaining_eq_cons h
  rw [State.resumeLength, State.runLength, if_neg (by omega), hread]
  simp only [State.resumeArgs, State.takeLength_eq]

theorem State.resumeArgs_of_short {s : State} (h : s.tableLen < s.cur + s.latches.cnt.toNat) :
    s.resumeArgs = s.raise .tableBounds s.tableLen := if_pos h

theorem State.resumeArgs_of_fits {s : State} (h : s.cur + s.latches.cnt.toNat ≤ s.tableLen) :
    s.resumeArgs = s.dispatchArgs (s.remaining.take s.latches.cnt.toNat) := by
  rw [State.remaining_take (by omega)]
  exact if_neg (by omega)

/-! ### A record taken whole is the record taken state by state (R126) -/

/-- Both forms of a record with its bytes at the cursor do what its opcode and length byte say. -/
theorem exec_entry {s : State} (hd : s.recordDue) {op l : Byte} {args : List Byte}
    (hn : args.length = (lengthCount l).toNat) :
    exec (if lengthDelay l then .entd op args else .ent op args) s = .next (s.record op l args) := by
  have hl : lengthByte (lengthDelay l) args.length = l := by rw [hn, lengthByte_split]
  cases hdly : lengthDelay l <;> rw [hdly] at hl <;>
    simp only [exec, execEnt, execEntd, State.perform_of_due hd, hl, if_true, Bool.false_eq_true, if_false]

/-- A record that is read to its end, after its opcode byte: what `S_LEN` and `S_ARG` make of its other bytes. -/
theorem State.record_eq_resumeLength {s : State} {op l : Byte} {args rest : List Byte} (hop : op ≠ 0#8)
    (h : s.remaining = op :: l :: (args ++ rest)) (hn : args.length = (lengthCount l).toNat) :
    s.record op l args = (s.takeOpcode op).resumeLength := by
  have hlen := State.remaining_takeOpcode hop h
  have hargs := State.bytes_at_cur (State.remaining_takeLength hlen)
  have hcnt : ((s.takeOpcode op).takeLength l).latches.cnt = lengthCount l := by rw [State.takeLength_eq]
  rw [State.resumeLength_of_byte hlen, State.resumeArgs, hcnt, ← hn, hargs, State.record, State.runLength,
    if_neg (Nat.not_le.mpr (State.remaining_eq_cons h).1), if_neg (Nat.not_le.mpr (State.remaining_eq_cons hlen).1)]

/-- A record cut short within its arguments, after its opcode byte: `S_LEN` reads the length byte, `S_ARG` faults. -/
theorem State.cutShort_noArgs_eq_resumeLength {s : State} {op l : Byte} {more : List Byte} (hop : op ≠ 0#8)
    (h : s.remaining = op :: l :: more) (hlt : more.length < (lengthCount l).toNat) :
    s.cutShort (.noArgs op l) = (s.takeOpcode op).resumeLength := by
  have hlen := State.remaining_takeOpcode hop h
  have hmore := ((s.takeOpcode op).takeLength l).remaining_length
  have hcnt : ((s.takeOpcode op).takeLength l).latches.cnt = lengthCount l := by rw [State.takeLength_eq]
  rw [State.remaining_takeLength hlen] at hmore
  rw [State.resumeLength_of_byte hlen, State.resumeArgs_of_short (by rw [hcnt]; omega)]
  rfl

/-- A record cut short before its length byte: `S_LEN` faults. -/
theorem State.cutShort_noLength_eq_resumeLength {s : State} {op : Byte} (hop : op ≠ 0#8) (h : s.remaining = [op]) :
    s.cutShort (.noLength op) = (s.takeOpcode op).resumeLength :=
  (State.resumeLength_of_end (State.remaining_eq_nil (State.remaining_takeOpcode hop h))).symm

/-- In `S_OPC` at a byte other than the sentinel, the step is `S_OPC`'s read and then what `S_LEN` does. -/
theorem engineStep_entry {s : State} (hd : s.recordDue) {op : Byte} {more : List Byte} (hop : op ≠ 0#8)
    (h : s.remaining = op :: more) : engineStep s = .next (s.takeOpcode op).resumeLength := by
  rcases decodeRecord_cases s.remaining with ⟨hb, -⟩ | ⟨o, -, hb, hdec⟩ | ⟨o, l, tail, -, hb, hlt, hdec⟩ |
    ⟨rest, hb, -⟩ | ⟨o, l, args, rest, -, hb, hn, hdec⟩
  · simp [h] at hb
  · obtain rfl : op = o := (List.cons.inj (h.symm.trans hb)).1
    rw [engineStep_cut hd hdec, State.cutShort_noLength_eq_resumeLength hop hb]
  · obtain rfl : op = o := (List.cons.inj (h.symm.trans hb)).1
    rw [engineStep_cut hd hdec, State.cutShort_noArgs_eq_resumeLength hop hb hlt]
  · simp [h, hop] at hb
  · obtain rfl : op = o := (List.cons.inj (h.symm.trans hb)).1
    rw [engineStep_record hd hdec, exec_entry hd hn, State.record_eq_resumeLength hop hb hn]

/-- In `S_OPC` at the sentinel, the operation ends with the cursor on it (R127, R132). -/
theorem engineStep_sentinel {s : State} (hd : s.recordDue) {more : List Byte} (h : s.remaining = 0#8 :: more) :
    engineStep s = .next (s.takeOpcode 0#8).finish := by
  have hdec : decodeRecord s.remaining = .ok (.endRec, more) := by rw [h, decodeRecord_end]
  rw [engineStep_record hd hdec, exec, execEndRec, State.perform_of_due hd, State.haltRecord,
    if_neg (Nat.not_le.mpr (State.remaining_eq_cons h).1)]

/-! ### The step of a running interpreter is that of the state its state leads to -/

section Running
variable {s : State} (hp : s.phase = .run)
include hp

theorem engineStep_eq_takeOpcode (hi : s.istate = .sOpc) {op : Byte} {more : List Byte} (h : s.remaining = op :: more) :
    engineStep s = engineStep (s.takeOpcode op) := by
  by_cases hop : op = 0#8
  · subst hop
    rw [engineStep_sentinel ⟨hp, hi⟩ h, engineStep_halt (by rw [State.takeOpcode_end]; exact hp)
      (by rw [State.takeOpcode_end])]
  · rw [engineStep_entry ⟨hp, hi⟩ hop h, engineStep_length (by rw [State.takeOpcode_entry s hop]; exact hp)
      (by rw [State.takeOpcode_entry s hop])]

theorem engineStep_eq_takeLength (hi : s.istate = .sLen) {l : Byte} {more : List Byte} (h : s.remaining = l :: more) :
    engineStep s = engineStep (s.takeLength l) := by
  rw [engineStep_length hp hi, State.resumeLength_of_byte h, engineStep_args (by rw [State.takeLength_eq]; exact hp)
    (by rw [State.takeLength_eq])]

theorem engineStep_eq_dispatchArgs (hi : s.istate = .sArg) (hfit : s.cur + s.latches.cnt.toNat ≤ s.tableLen) :
    engineStep s = .next (s.dispatchArgs (s.remaining.take s.latches.cnt.toNat)) := by
  rw [engineStep_args hp hi, State.resumeArgs_of_fits hfit]

end Running

/-! ### The obligation -/

/-- Every step has a next state: the host's actions each have one, and so has the engine's part. -/
theorem step_next (s : State) : ∃ t, step s = .next t := by
  rcases step_cases s with ⟨_, _, e⟩ | ⟨_, _, _, e⟩ | ⟨_, _, _, _, e⟩ | ⟨acts, _, e⟩ <;> rw [e]
  · exact ⟨_, rfl⟩
  · exact ⟨_, rfl⟩
  · exact ⟨_, rfl⟩
  · exact engineStep_next _

/-- Settles O50, with one lemma for each state of the interpreter; the case with an idea is `S_OPC`, where a record
taken whole has to end as the record taken from `S_LEN` on (`engineStep_entry`). -/
theorem stepInEveryState : Obligations.StepInEveryState := by
  refine fun s => ⟨step_next s, fun hh hp => ?_⟩
  rw [step_nil hh]
  refine ⟨fun op more hi h => ?_, fun l more hi h => ?_, fun hi hfit => ?_, fun hi hend => ?_, fun hi hshort => ?_,
    fun hi => engineStep_halt hp hi⟩
  · rw [engineStep_eq_takeOpcode hp hi h, State.takeOpcode_eq, step_nil]
    exact hh
  · rw [engineStep_eq_takeLength hp hi h, State.takeLength_eq, lengthCount_eq_mask, lengthDelay_eq_shift, step_nil]
    exact hh
  · refine ⟨_, engineStep_eq_dispatchArgs hp hi hfit, ?_⟩
    rw [State.dispatchArgs_eq]
    exact ⟨hp, rfl, rfl, rfl, rfl, rfl⟩
  · rw [engineStep_length hp hi, State.resumeLength_of_end hend]
  · rw [engineStep_args hp hi, State.resumeArgs_of_short hshort]

end Sys2Proof.Machine
end

section
/-! PROOFS. What the machine does to the bus, said as events: a state plays a list of events, and every operation is a
change of the engine's own registers with such a list (00_scope.md R8, 10_state.md R34, R35). -/

namespace Sys2Proof.Machine

/-! ### Playing events -/

/-- The state after the events `ev` have happened: the lines, `TX` and `LASTCMD` as the events say (R34, R35), and `EV`
longer by them. -/
def State.play (s : State) (ev : List Event) : State :=
  { s with
    lines := ev.foldl Lines.after s.lines
    tx := (ev.foldl BusView.read s.busView).tx
    lastCmd := (ev.foldl BusView.read s.busView).lastCmd
    ev := s.ev ++ ev }

@[simp] theorem State.play_cfg (s : State) (ev : List Event) : (s.play ev).cfg = s.cfg := rfl
@[simp] theorem State.play_latches (s : State) (ev : List Event) : (s.play ev).latches = s.latches := rfl
@[simp] theorem State.play_dly (s : State) (ev : List Event) : (s.play ev).dly = s.dly := rfl

@[simp] theorem State.play_nil (s : State) : s.play [] = s := by simp [State.play, State.busView]

/-- The state with other latches. -/
def State.withLatches (s : State) (l : Latches) : State := { s with latches := l }

@[simp] theorem State.withLatches_cfg (s : State) (l : Latches) : (s.withLatches l).cfg = s.cfg := rfl
@[simp] theorem State.withLatches_latches (s : State) (l : Latches) : (s.withLatches l).latches = l := rfl
@[simp] theorem State.withLatches_withLatches (s : State) (l l' : Latches) :
    (s.withLatches l).withLatches l' = s.withLatches l' := rfl

/-- The latches are no part of the bus. -/
@[simp] theorem State.play_withLatches (s : State) (ev : List Event) (l : Latches) :
    (s.play ev).withLatches l = (s.withLatches l).play ev := rfl

/-- Neither is `PHASE`. -/
@[simp] theorem State.play_finish (s : State) (ev : List Event) : (s.play ev).finish = s.finish.play ev := rfl

theorem BusView.foldl_read_lines (ev : List Event) (b : BusView) :
    (ev.foldl BusView.read b).lines = ev.foldl Lines.after b.lines := by
  induction ev generalizing b with
  | nil => rfl
  | cons e ev ih => exact ih (b.read e)

theorem State.play_busView (s : State) (ev : List Event) : (s.play ev).busView = ev.foldl BusView.read s.busView := by
  show BusView.mk (ev.foldl Lines.after s.busView.lines) _ _ = _
  rw [← BusView.foldl_read_lines]
  rfl

theorem State.play_play (s : State) (ev ev' : List Event) : (s.play ev).play ev' = s.play (ev ++ ev') := by
  unfold State.play
  simp only [List.foldl_append, List.append_assoc]
  rw [← State.play_busView s ev]
  rfl

/-- An event at which the controller neither latches nor is reset. -/
theorem State.play_unseen (s : State) (e : Event) (hlatch : s.busView.latched e = none) (hreset : e ≠ .pin .rst .low) :
    s.play [e] = { s with lines := s.lines.after e, ev := s.ev ++ [e] } := by
  have hread : s.busView.read e = { s.busView with lines := s.lines.after e } := by
    simp only [BusView.read, BusView.commandAfter, hlatch, if_neg hreset, Option.toList_none, List.append_nil]
    rfl
  simp only [State.play, List.foldl_cons, List.foldl_nil, hread]
  rfl

/-! ### The primitives and the procedures play their events -/

theorem State.portWrite_eq_play (s : State) (v : Byte) : s.portWrite v = s.play [.data v] :=
  (s.play_unseen (.data v) rfl (by simp)).symm

theorem State.delay_eq_play (s : State) (n : Nat) : s.delay n = s.play [.delay n] :=
  (s.play_unseen (.delay n) rfl (by simp)).symm

theorem State.raise_eq_play (s : State) (c : Cause) (info : Nat) :
    s.raise c info =
      State.play { s with fcause := causeCode c, faddr := info, phase := .faulted } [.fault c info] :=
  (State.play_unseen _ (.fault c info) rfl (by simp)).symm

theorem State.pinWrite_unseen (s : State) {l : Line} {b : Level} (hsees : s.controllerSees l b = s)
    (hlatch : s.busView.latched (.pin l b) = none) (hreset : Event.pin l b ≠ .pin .rst .low) :
    s.pinWrite l b = s.play [.pin l b] := by
  rw [s.play_unseen _ hlatch hreset, State.pinWrite, hsees]
  rfl

/-- Both descriptions of the controller agree: what a line write makes it see (`controllerSees`) is what it reads from
the event (`BusView.read`). -/
theorem State.pinWrite_eq_play (s : State) (l : Line) (b : Level) : s.pinWrite l b = s.play [.pin l b] := by
  cases l with
  | cs | rs | rd => cases b <;> exact s.pinWrite_unseen rfl (by simp [BusView.latched]) (by simp)
  | rst =>
    cases b with
    | low => simp [State.pinWrite_rst_low, State.play, State.busView, BusView.read, BusView.latched,
        BusView.commandAfter, Lines.after, Lines.set]
    | high => exact s.pinWrite_unseen rfl (by simp [BusView.latched]) (by simp)
  | wr =>
    cases b with
    | low => exact s.pinWrite_unseen rfl (by simp [BusView.latched]) (by simp)
    | high =>
      by_cases hedge : s.lines.wr = .low ∧ s.lines.cs = .low <;>
        simp [State.pinWrite, State.controllerSees, State.controllerLatch, State.emit, State.play, State.busView,
          BusView.read, BusView.latched, BusView.commandAfter, Lines.after, hedge]

theorem State.busWrite_eq_play (s : State) (v : Byte) : s.busWrite v = s.play (busWriteEvents s.cfg v) := by
  simp only [State.busWrite, State.portWrite_eq_play, State.pinWrite_eq_play, State.delay_eq_play, State.play_play]
  rfl

theorem State.sendOpcode_eq_play (s : State) (opcode : Byte) :
    s.sendOpcode opcode = (s.setOpc opcode).play (cmdEvents s.cfg opcode) := by
  simp only [State.sendOpcode, State.pinWrite_eq_play, State.busWrite_eq_play, State.play_play]
  rfl

theorem State.sendArgs_eq_play (args : List Byte) (s : State) :
    s.sendArgs args =
      (s.setArgi (s.latches.argi + args.length)).play (args.flatMap (busWriteEvents s.cfg)) := by
  induction args generalizing s with
  | nil => rw [List.flatMap_nil, State.play_nil]; rfl
  | cons a args ih =>
    have hargi : s.latches.argi + 1 + args.length = s.latches.argi + (a :: args).length := by
      simp only [List.length_cons]; omega
    rw [State.sendArgs, ih, State.busWrite_eq_play, List.flatMap_cons, ← State.play_play, ← hargi]
    rfl

theorem State.frame_eq_play (s : State) (opcode : Byte) (args : List Byte) :
    s.frame opcode args =
      (s.withLatches { s.latches with opc := opcode, argi := args.length }).play (frameEvents s.cfg opcode args) := by
  rw [State.frame, State.sendOpcode_eq_play, State.pinWrite_eq_play, State.sendArgs_eq_play, frameEvents,
    List.append_cons, ← State.play_play, ← State.play_play]
  simp only [State.setArgi, State.setOpc, State.play_latches, Nat.zero_add]
  rfl

theorem State.setWin_eq_play (s : State) (x0 y0 x1 y1 : Half) :
    s.setWin x0 y0 x1 y1 =
      (s.withLatches
        { s.latches with opc := s.cfg.pasetOp, argi := 4, x0 := x0, y0 := y0, x1 := x1, y1 := y1 }).play
        (setWinEvents s.cfg x0 y0 x1 y1) := by
  have hargs (v w : Half) : be16 v ++ be16 w = rangeArgs v w := rfl
  have hwin : s.setWindow x0 y0 x1 y1 = s.withLatches { s.latches with x0 := x0, y0 := y0, x1 := x1, y1 := y1 } := rfl
  simp only [State.setWin, hargs, hwin, State.frame_eq_play, State.play_cfg, State.play_latches, State.play_play,
    State.play_withLatches, State.withLatches_cfg, State.withLatches_latches, State.withLatches_withLatches]
  rfl

theorem State.dispatchArgs_eq_play (s : State) (args : List Byte) :
    s.dispatchArgs args =
      State.play
        { s with
          latches := { s.latches with argi := args.length }
          cur := s.cur + s.latches.cnt.toNat
          istate := .sOpc
          rdLog := s.rdLog ++ List.range' s.cur s.latches.cnt.toNat }
        (frameEvents s.cfg s.latches.opc args ++ settleEvents s.cfg s.dly) := by
  unfold State.dispatchArgs
  simp only [State.frame_eq_play, State.delay_eq_play, State.play_dly]
  cases hd : s.dly
  · simp only [State.logReads, hd, settleEvents, if_false, Bool.false_eq_true, List.append_nil]
    rfl
  · simp only [State.logReads, hd, settleEvents, if_true, ← State.play_play]
    rfl

end Sys2Proof.Machine
end

section
/-! PROOFS. What an operation can do, said once: the events it plays and what it leaves in the status registers
(10_state.md R21 to R26, R31; 41_command_frame.md R110 to R112). Settles O52. -/

namespace Sys2Proof.Machine

/-! ### The events of operations -/

/-- The events of RSTP (44_panel_reset.md R165). -/
def rstpEvents (c : Config) : List Event :=
  [.pin .rst .low, .delay c.tRstLow, .pin .rst .high, .delay c.tRstHigh]

/-- The event lists of every operation but RSTP: whole bus writes, the writes of `CS` (to 0 only) and of `RS`, delays
and faults. -/
inductive Traffic : List Event → Prop
  | nil : Traffic []
  | delay (n : Nat) : Traffic [.delay n]
  | fault (c : Cause) (info : Nat) : Traffic [.fault c info]
  | select : Traffic [.pin .cs .low]
  | register (b : Level) : Traffic [.pin .rs b]
  | busWrite (c : Config) (v : Byte) : Traffic (busWriteEvents c v)
  | append {ev ev' : List Event} : Traffic ev → Traffic ev' → Traffic (ev ++ ev')

theorem Traffic.cmd (c : Config) (opcode : Byte) : Traffic (cmdEvents c opcode) :=
  .append .select (.append (.register .low) (.busWrite c opcode))

theorem Traffic.args (c : Config) : ∀ args : List Byte, Traffic (args.flatMap (busWriteEvents c))
  | [] => .nil
  | a :: args => .append (.busWrite c a) (Traffic.args c args)

theorem Traffic.frame (c : Config) (opcode : Byte) (args : List Byte) : Traffic (frameEvents c opcode args) :=
  .append (.cmd c opcode) (.append (.register .high) (.args c args))

theorem Traffic.setWin (c : Config) (x0 y0 x1 y1 : Half) : Traffic (setWinEvents c x0 y0 x1 y1) :=
  .append (.frame ..) (.frame ..)

theorem Traffic.settle (c : Config) : ∀ d : Bool, Traffic (settleEvents c d)
  | true => .delay c.tSettle
  | false => .nil

/-- What an operation can play: RSTP has its own events. -/
abbrev OperationEvents (c : Config) (ev : List Event) : Prop := Traffic ev ∨ ev = rstpEvents c

/-! ### What they do to the lines -/

@[simp] theorem pinWrites_append (l : Line) (ev ev' : List Event) :
    pinWrites l (ev ++ ev') = pinWrites l ev + pinWrites l ev' := by
  induction ev with
  | nil => simp [pinWrites]
  | cons e ev ih => cases e <;> simp [pinWrites, ih, Nat.add_assoc]

/-- A line that is not written keeps its level (00_scope.md R8). -/
theorem Lines.get_foldl_after {l : Line} {ev : List Event} (h : pinWrites l ev = 0) (ls : Lines) :
    (ev.foldl Lines.after ls).get l = ls.get l := by
  induction ev generalizing ls with
  | nil => rfl
  | cons e ev ih =>
    cases e with
    | pin k b =>
      simp only [pinWrites, Nat.add_eq_zero_iff, ite_eq_right_iff, one_ne_zero, imp_false] at h
      rw [List.foldl_cons, ih h.2]
      cases k <;> cases l <;> simp [Lines.after, Lines.set, Lines.get] at h ⊢
    | data v => rw [List.foldl_cons, ih h]; cases l <;> rfl
    | delay n => exact ih h ls
    | fault c info => exact ih h ls

theorem Traffic.pinWrites_eq_zero {ev : List Event} (h : Traffic ev) {l : Line} (hl : l = .rd ∨ l = .rst) :
    pinWrites l ev = 0 := by
  induction h with
  | append _ _ ih ih' => simp [ih, ih']
  | _ => rcases hl with rfl | rfl <;> rfl

theorem Traffic.cs_low {ev : List Event} (h : Traffic ev) {ls : Lines} (hcs : ls.cs = .low) :
    (ev.foldl Lines.after ls).cs = .low := by
  induction h generalizing ls with
  | append _ _ ih ih' => rw [List.foldl_append]; exact ih' (ih hcs)
  | select => rfl
  | _ => exact hcs

theorem Traffic.wr_high {ev : List Event} (h : Traffic ev) {ls : Lines} (hwr : ls.wr = .high) :
    (ev.foldl Lines.after ls).wr = .high := by
  induction h generalizing ls with
  | append _ _ ih ih' => rw [List.foldl_append]; exact ih' (ih hwr)
  | busWrite c v => rfl
  | _ => exact hwr

/-- No operation writes `RD`, deselects the controller, or leaves the strobe or `RST` low. -/
structure Lines.Kept (ls ls' : Lines) : Prop where
  rd : ls'.rd = ls.rd
  cs : ls.cs = .low → ls'.cs = .low
  wr : ls.wr = .high → ls'.wr = .high
  rst : ls.rst = .high → ls'.rst = .high

theorem Lines.kept_of_events {c : Config} {ev : List Event} (h : OperationEvents c ev) (ls : Lines) :
    ls.Kept (ev.foldl Lines.after ls) := by
  rcases h with h | rfl
  · exact ⟨Lines.get_foldl_after (l := .rd) (h.pinWrites_eq_zero (.inl rfl)) ls, h.cs_low, h.wr_high,
      (Lines.get_foldl_after (l := .rst) (h.pinWrites_eq_zero (.inr rfl)) ls).trans⟩
  · exact ⟨rfl, id, id, fun _ => rfl⟩

/-! ### A state that follows from another by events -/

/-- `t` follows from `s` by the events `ev`: the bus and `EV` are what they say, the parameters and the table are as
they were; the engine's own registers are free. -/
structure State.Follows (s t : State) (ev : List Event) : Prop where
  busView : t.busView = ev.foldl BusView.read s.busView
  ev : t.ev = s.ev ++ ev
  cfg : t.cfg = s.cfg
  table : t.table = s.table
  tableLen : t.tableLen = s.tableLen

theorem State.Follows.lines {s t : State} {ev : List Event} (h : s.Follows t ev) :
    t.lines = ev.foldl Lines.after s.lines :=
  (congrArg BusView.lines h.busView).trans (BusView.foldl_read_lines ev s.busView)

/-- What an operation, or a part of one, can do: it plays its events and the engine rests at an opcode position or
between operations, or it takes a fault. -/
inductive Effect (s t : State) : List Event → Prop
  | performed {ev : List Event} (follows : s.Follows t ev) (unfaulted : s.phase ≠ .faulted)
      (cause : t.fcause = s.fcause) (addr : t.faddr = s.faddr)
      (rests : t.phase = .idle ∨ t.phase = .run ∧ t.istate = .sOpc) : Effect s t ev
  | faulted {c : Cause} {info : Nat} (follows : s.Follows t [.fault c info]) (phase : t.phase = .faulted)
      (cause : t.fcause = causeCode c) : Effect s t [.fault c info]

/-- Events played after a change of the engine's own registers. -/
theorem State.follows_play {s m : State} (ev : List Event) (hbus : m.busView = s.busView) (hev : m.ev = s.ev)
    (hcfg : m.cfg = s.cfg) (htable : m.table = s.table) (hlen : m.tableLen = s.tableLen) :
    s.Follows (m.play ev) ev :=
  ⟨by rw [State.play_busView, hbus], by rw [← hev]; rfl, hcfg, htable, hlen⟩

theorem Effect.follows {s t : State} {ev : List Event} : Effect s t ev → s.Follows t ev
  | .performed h _ _ _ _ => h
  | .faulted h _ _ => h

/-- Events played by an operation that takes no fault, after a change of the engine's own registers. -/
theorem Effect.performed_play {s m : State} {ev : List Event} (follows : s.Follows (m.play ev) ev)
    (unfaulted : s.phase ≠ .faulted) (cause : m.fcause = s.fcause) (addr : m.faddr = s.faddr)
    (rests : m.phase = .idle ∨ m.phase = .run ∧ m.istate = .sOpc) : Effect s (m.play ev) ev :=
  .performed follows unfaulted cause addr rests

/-- The request at the port has no part in it. -/
theorem Effect.of_withPort {s t : State} {p : Option HostReq} {ev : List Event} :
    Effect { s with port := p } t ev → Effect s t ev
  | .performed ⟨hbus, hev, hcfg, htable, hlen⟩ hrun hcause haddr hrest =>
    .performed ⟨hbus, hev, hcfg, htable, hlen⟩ hrun hcause haddr hrest
  | .faulted ⟨hbus, hev, hcfg, htable, hlen⟩ hphase hcause => .faulted ⟨hbus, hev, hcfg, htable, hlen⟩ hphase hcause

/-- A fault taken after a change of latches, cursor and read log (60_exceptions.md R175). -/
theorem State.raise_effect (s : State) (la : Latches) (cur : Nat) (ist : IState) (dly : Bool) (rd : List Nat)
    (c : Cause) (info : Nat) :
    Effect s (State.raise { s with latches := la, cur := cur, istate := ist, dly := dly, rdLog := rd } c info)
      [.fault c info] := by
  rw [State.raise_eq_play]
  exact .faulted (State.follows_play _ rfl rfl rfl rfl rfl) rfl rfl

/-- The frame of a record, after a change of latches, cursor and read log (42_init_table.md R129). -/
theorem State.dispatchArgs_effect (s : State) (hp : s.phase = .run) (la : Latches) (cur : Nat) (ist : IState)
    (dly : Bool) (rd : List Nat) (args : List Byte) :
    ∃ ev, Effect s
      (State.dispatchArgs { s with latches := la, cur := cur, istate := ist, dly := dly, rdLog := rd } args) ev ∧
      Traffic ev := by
  rw [State.dispatchArgs_eq_play]
  exact ⟨_, .performed_play (State.follows_play _ rfl rfl rfl rfl rfl) (by simp [hp]) rfl rfl (.inr ⟨hp, rfl⟩),
    .append (.frame ..) (.settle ..)⟩

theorem State.record_effect {s : State} (hp : s.phase = .run) (op l : Byte) (args : List Byte) :
    ∃ ev, Effect s (s.record op l args) ev ∧ Traffic ev := by
  obtain ⟨la, cur, ist, dly, r, ⟨info, e⟩ | e⟩ := s.record_forms op l args <;> rw [e]
  · exact ⟨_, s.raise_effect .., .fault ..⟩
  · exact s.dispatchArgs_effect hp ..

theorem State.haltRecord_effect {s : State} (hp : s.phase = .run) :
    ∃ ev, Effect s s.haltRecord ev ∧ Traffic ev := by
  rcases s.haltRecord_forms with e | e <;> rw [e]
  · exact ⟨_, s.raise_effect .., .fault ..⟩
  · exact ⟨[], .performed ⟨rfl, by simp, rfl, rfl, rfl⟩ (by simp [hp]) rfl rfl (.inl rfl), .nil⟩

/-! ### The instructions -/

/-- The events of each request (R106, R110, R111, R150, R153, R165); INIT's own part has none (R125). -/
def requestEvents (c : Config) : Instr → List Event
  | .buswr v => busWriteEvents c v
  | .cmd opcode => cmdEvents c opcode
  | .frame opcode args => frameEvents c opcode args
  | .setwin x0 y0 x1 y1 => setWinEvents c x0 y0 x1 y1
  | .wrpix x y color =>
    setWinEvents c x y (addSpan x c.pixW) (addSpan y c.pixH) ++ frameEvents c c.ramwrOp (be16 color)
  | .rstp => rstpEvents c
  | .init _ | .ent _ _ | .entd _ _ | .endRec => []

/-- What each request makes of the latches (10_state.md R28). -/
def requestLatches (c : Config) (l : Latches) : Instr → Latches
  | .cmd opcode => { l with opc := opcode }
  | .frame opcode args => { l with opc := opcode, argi := args.length }
  | .setwin x0 y0 x1 y1 => { l with opc := c.pasetOp, argi := 4, x0 := x0, y0 := y0, x1 := x1, y1 := y1 }
  | .wrpix x y color =>
    { l with
      opc := c.ramwrOp, argi := 2, x0 := x, y0 := y, x1 := addSpan x c.pixW, y1 := addSpan y c.pixH, color := color }
  | .buswr _ | .init _ | .rstp | .ent _ _ | .entd _ _ | .endRec => l

/-- What each request makes of the engine's own registers: INIT starts the interpreter, any other one ends. -/
def State.afterRequest (s : State) : Instr → State
  | .init base => { s with phase := .run, cur := base, istate := .sOpc }
  | i => { s with phase := .idle, latches := requestLatches s.cfg s.latches i }

/-- Everything a request does, in one equation. -/
theorem exec_request {i : Instr} {s : State} (hi : i.isRequest = true) (hs : s.ready) :
    exec i s = .next ((s.afterRequest i).play (requestEvents s.cfg i)) := by
  cases i with
  | buswr v => simp only [exec, execBuswr, State.accept_of_ready hs, State.busWrite_eq_play]; rfl
  | cmd opcode => simp only [exec, execCmd, State.accept_of_ready hs, State.cmdOnly, State.sendOpcode_eq_play]; rfl
  | frame opcode args => simp only [exec, execFrame, State.accept_of_ready hs, State.frame_eq_play]; rfl
  | init base => simp only [exec, execInit, State.accept_of_ready hs, requestEvents, State.play_nil]; rfl
  | setwin x0 y0 x1 y1 =>
    simp only [exec, execSetwin, State.accept_of_ready hs, State.setWin_eq_play, State.play_finish, requestEvents]
    rfl
  | wrpix x y color =>
    simp only [exec, execWrpix, State.accept_of_ready hs, State.setWin_eq_play, State.frame_eq_play, State.play_cfg,
      State.play_latches, State.play_withLatches, State.play_play, State.withLatches_withLatches,
      State.withLatches_latches, State.play_finish, requestEvents]
    rfl
  | rstp =>
    simp only [exec, execRstp, State.accept_of_ready hs, State.pinWrite_eq_play, State.delay_eq_play, State.play_play]
    rfl
  | _ => cases hi

/-- A request is executed only by a ready engine (60_exceptions.md R188). -/
theorem ready_of_exec_request {i : Instr} {s t : State} (hi : i.isRequest = true) (h : exec i s = .next t) :
    s.ready := by
  cases i with
  | buswr => exact (exec_buswr_next h).1
  | cmd => exact (exec_cmd_next h).1
  | frame => exact (exec_frame_next h).1
  | init => exact (exec_init_next h).1
  | setwin => exact (exec_setwin_next h).1
  | wrpix => exact (exec_wrpix_next h).1
  | rstp => exact (exec_rstp_next h).1
  | _ => cases hi

theorem exec_request_next {i : Instr} {s t : State} (hi : i.isRequest = true) (h : exec i s = .next t) :
    t = (s.afterRequest i).play (requestEvents s.cfg i) := by
  rw [exec_request hi (ready_of_exec_request hi h)] at h
  cases h
  rfl

theorem Traffic.request (c : Config) {i : Instr} (hi : i ≠ .rstp) : Traffic (requestEvents c i) := by
  cases i with
  | buswr v => exact .busWrite c v
  | cmd opcode => exact .cmd c opcode
  | frame opcode args => exact .frame c opcode args
  | setwin x0 y0 x1 y1 => exact .setWin c x0 y0 x1 y1
  | wrpix x y color => exact .append (.setWin ..) (.frame ..)
  | rstp => exact absurd rfl hi
  | _ => exact .nil

theorem exec_request_effect {i : Instr} {s t : State} (hi : i.isRequest = true) (h : exec i s = .next t) :
    Effect s t (requestEvents s.cfg i) := by
  have hrun : s.phase ≠ .faulted := by simp [show s.phase = .idle from ready_of_exec_request hi h]
  rw [exec_request_next hi h]
  cases i with
  | init => exact .performed_play (State.follows_play _ rfl rfl rfl rfl rfl) hrun rfl rfl (.inr ⟨rfl, rfl⟩)
  | _ => exact .performed_play (State.follows_play _ rfl rfl rfl rfl rfl) hrun rfl rfl (.inl rfl)

/-- What a table record makes of the state when it is due. -/
def State.afterRecord (s : State) : Instr → State
  | .ent op args => s.record op (lengthByte false args.length) args
  | .entd op args => s.record op (lengthByte true args.length) args
  | .endRec => s.haltRecord
  | _ => s

theorem exec_record {i : Instr} {s : State} (hi : i.isRequest = false) (hd : s.recordDue) :
    exec i s = .next (s.afterRecord i) := by
  cases i with
  | ent op args => exact State.perform_of_due hd (State.record · op (lengthByte false args.length) args)
  | entd op args => exact State.perform_of_due hd (State.record · op (lengthByte true args.length) args)
  | endRec => exact State.perform_of_due hd State.haltRecord
  | _ => cases hi

/-- A record is performed only when it is due (R126). -/
theorem due_of_exec_record {i : Instr} {s t : State} (hi : i.isRequest = false) (h : exec i s = .next t) :
    s.recordDue := by
  cases i with
  | ent => exact (exec_ent_next h).1
  | entd => exact (exec_entd_next h).1
  | endRec => exact (exec_endRec_next h).1
  | _ => cases hi

theorem exec_record_next {i : Instr} {s t : State} (hi : i.isRequest = false) (h : exec i s = .next t) :
    t = s.afterRecord i := by
  rw [exec_record hi (due_of_exec_record hi h)] at h
  cases h
  rfl

theorem exec_record_effect {i : Instr} {s t : State} (hi : i.isRequest = false) (h : exec i s = .next t) :
    ∃ ev, Effect s t ev ∧ Traffic ev := by
  have hp := (due_of_exec_record hi h).1
  rw [exec_record_next hi h]
  cases i with
  | ent | entd => exact State.record_effect hp ..
  | endRec => exact State.haltRecord_effect hp
  | _ => cases hi

/-- Every instruction that has a step has an effect; only RSTP plays anything but `Traffic`. -/
theorem exec_effect {i : Instr} {s t : State} (h : exec i s = .next t) :
    ∃ ev, Effect s t ev ∧ (Traffic ev ∨ i = .rstp ∧ ev = rstpEvents s.cfg) := by
  cases hi : i.isRequest with
  | true =>
    refine ⟨_, exec_request_effect hi h, ?_⟩
    by_cases hr : i = .rstp
    · exact .inr ⟨hr, by rw [hr]; rfl⟩
    · exact .inl (.request _ hr)
  | false =>
    obtain ⟨ev, he, hev⟩ := exec_record_effect hi h
    exact ⟨ev, he, .inl hev⟩

/-- Settles O52: a line whose writes an instruction's events do not hold keeps its level, and the events of no
instruction hold a write of `RD`, of no instruction but RSTP one of `RST`. -/
theorem readStrobeNeverWritten : Obligations.ReadStrobeNeverWritten := by
  intro i s t h
  obtain ⟨ev, he, hev⟩ := exec_effect h
  have unwritten {l : Line} (hl : pinWrites l ev = 0) :
      t.lines.get l = s.lines.get l ∧ pinWrites l t.ev = pinWrites l s.ev := by
    rw [he.follows.lines, he.follows.ev, pinWrites_append, hl]
    exact ⟨Lines.get_foldl_after hl s.lines, rfl⟩
  have hrd : pinWrites .rd ev = 0 := by
    rcases hev with htraffic | ⟨-, rfl⟩
    · exact htraffic.pinWrites_eq_zero (.inl rfl)
    · rfl
  obtain ⟨hlevel, hwrites⟩ := unwritten hrd
  refine ⟨hlevel, hwrites, fun hi => ?_⟩
  rcases hev with htraffic | ⟨hrstp, -⟩
  · exact unwritten (htraffic.pinWrites_eq_zero (.inr rfl))
  · exact absurd hrstp hi

end Sys2Proof.Machine
end

section
/-! PROOFS. What a step can do to the state, and the invariant (10_state.md R20 to R37). Settles O49, O51, O53, O48, and
the statements about single values O12, O33, O34, O35, O36. -/

namespace Sys2Proof.Machine

/-! ### The engine's part of a step -/

theorem State.resumeArgs_effect {s : State} (hp : s.phase = .run) : ∃ ev, Effect s s.resumeArgs ev ∧ Traffic ev := by
  rcases s.resumeArgs_forms with e | ⟨-, e⟩ <;> rw [e]
  · exact ⟨_, s.raise_effect .., .fault ..⟩
  · exact s.dispatchArgs_effect hp ..

theorem State.resumeLength_effect {s : State} (hp : s.phase = .run) :
    ∃ ev, Effect s s.resumeLength ev ∧ Traffic ev := by
  rcases s.resumeLength_forms with e | ⟨-, e⟩ <;> rw [e]
  · exact ⟨_, s.raise_effect .., .fault ..⟩
  · rw [State.takeLength_eq]
    rcases State.resumeArgs_forms _ with e' | ⟨-, e'⟩ <;> rw [e']
    · exact ⟨_, s.raise_effect .., .fault ..⟩
    · exact s.dispatchArgs_effect hp ..

theorem State.finish_effect {s : State} (hp : s.phase = .run) : Effect s s.finish [] :=
  .performed ⟨rfl, by simp, rfl, rfl, rfl⟩ (by simp [hp]) rfl rfl (.inl rfl)

/-- The engine waits, or what it does has an effect. -/
theorem engineStep_effect {s t : State} (h : engineStep s = .next t) :
    t = s ∨ ∃ ev, Effect s t ev ∧ OperationEvents s.cfg ev := by
  have of_traffic {u : State} (he : ∃ ev, Effect s u ev ∧ Traffic ev) :
      ∃ ev, Effect s u ev ∧ OperationEvents s.cfg ev := he.imp fun _ h => ⟨h.1, .inl h.2⟩
  rcases engineStep_forms h with ⟨rfl, -⟩ | ⟨r, i, -, -, -, hexec⟩ | ⟨r, -, -, -, rfl⟩ | ⟨i, rest, -, -, hexec⟩ |
    ⟨e, -, -, rfl⟩ | ⟨hp, -, rfl⟩ | ⟨hp, -, rfl⟩ | ⟨hp, -, rfl⟩
  · exact .inl rfl
  · obtain ⟨ev, he, hev⟩ := exec_effect hexec
    exact .inr ⟨ev, he.of_withPort, hev.imp_right And.right⟩
  · exact .inr ⟨_, (State.raise_effect { s with port := none } ..).of_withPort, .inl (.fault ..)⟩
  · obtain ⟨ev, he, hev⟩ := exec_effect hexec
    exact .inr ⟨ev, he, hev.imp_right And.right⟩
  · obtain ⟨la, cur, ist, dly, r, c, info, e⟩ := s.cutShort_forms e
    rw [e]
    exact .inr ⟨_, s.raise_effect .., .inl (.fault ..)⟩
  · exact .inr (of_traffic (State.resumeLength_effect hp))
  · exact .inr (of_traffic (State.resumeArgs_effect hp))
  · exact .inr ⟨_, State.finish_effect hp, .inl .nil⟩

/-! ### The invariant -/

/-- The port and the host's list are no part of the invariant. -/
theorem State.Inv.withRequests {s : State} (h : s.Inv) (p : Option HostReq) (acts : List HostAct) :
    State.Inv { s with port := p, host := acts } :=
  ⟨h.wr_high, h.rd_high, h.rst_high, h.run_at_opcode, h.fault_cause, h.cause_legal, h.no_fault_no_addr, h.table_wf,
    h.table_below, h.trace⟩

/-- Engine reset establishes all of the invariant that is not about the table. -/
theorem State.inv_engineReset {s : State} (hwf : s.table.wf = true) (hbelow : s.table.below s.tableLen = true) :
    s.engineReset.Inv where
  wr_high := rfl
  rd_high := rfl
  rst_high := rfl
  run_at_opcode h := by cases h
  fault_cause := by simp
  cause_legal := by simp
  no_fault_no_addr _ := rfl
  table_wf := hwf
  table_below := hbelow
  trace := rfl

theorem State.Inv.fillTable {s : State} (h : s.Inv) (bytes : List Byte) : (s.fillTable bytes).Inv :=
  ⟨h.wr_high, h.rd_high, h.rst_high, h.run_at_opcode, h.fault_cause, h.cause_legal, h.no_fault_no_addr,
    s.fillTable_wf bytes, s.fillTable_below bytes, h.trace⟩

/-- The part of the invariant that speaks of the bus and the trace follows from the events alone. -/
theorem State.Follows.trace {s t : State} {ev : List Event} (h : s.Follows t ev)
    (hs : s.busView = BusView.after s.cfg s.ev) : t.busView = BusView.after t.cfg t.ev := by
  rw [h.busView, h.cfg, h.ev, hs, BusView.after, BusView.after, List.foldl_append]

theorem causeCode_ne_zero (c : Cause) : causeCode c ≠ 0 := by cases c <;> decide

theorem causeCode_ne_three (c : Cause) : causeCode c ≠ 3 := by cases c <;> decide

/-- The part that speaks of the status registers follows from how the operation ends. -/
theorem State.Inv.status_of_effect {s t : State} {ev : List Event} (h : s.Inv) (he : Effect s t ev) :
    (t.phase = .run → t.istate = .sOpc) ∧ (t.phase = .faulted ↔ t.fcause ≠ 0) ∧ t.fcause ≠ 3 ∧
      (t.fcause = 0 → t.faddr = 0) := by
  cases he with
  | performed _ unfaulted cause addr rests =>
    have hnone : t.fcause = 0 := by simpa [h.fault_cause, cause] using unfaulted
    have hphase : t.phase ≠ .faulted := by rcases rests with hp | ⟨hp, -⟩ <;> simp [hp]
    exact ⟨fun hrun => by simpa [hrun] using rests, by simp [hphase, hnone], by simp [hnone],
      fun _ => addr.trans (h.no_fault_no_addr (cause ▸ hnone))⟩
  | @faulted c _ _ phase cause =>
    have hne : t.fcause ≠ 0 := cause ▸ causeCode_ne_zero c
    exact ⟨by simp [phase], iff_of_true phase hne, cause ▸ causeCode_ne_three c, fun h0 => absurd h0 hne⟩

theorem State.Inv.effect {s t : State} {ev : List Event} (h : s.Inv) (he : Effect s t ev)
    (hev : OperationEvents s.cfg ev) : t.Inv := by
  have kept : s.lines.Kept t.lines := he.follows.lines ▸ Lines.kept_of_events hev s.lines
  obtain ⟨hopcode, hfault, hlegal, haddr⟩ := h.status_of_effect he
  exact
    { wr_high := kept.wr h.wr_high
      rd_high := kept.rd.trans h.rd_high
      rst_high := kept.rst h.rst_high
      run_at_opcode := hopcode
      fault_cause := hfault
      cause_legal := hlegal
      no_fault_no_addr := haddr
      table_wf := he.follows.table ▸ h.table_wf
      table_below := by rw [he.follows.table, he.follows.tableLen, h.table_below]
      trace := he.follows.trace h.trace }

/-- Settles O49: the host's three actions keep the invariant each for its own reason, the engine's part of the step by
its effect. -/
theorem invariantKept : Obligations.InvariantKept := by
  intro s t hs h
  rcases step_cases s with ⟨rest, -, e⟩ | ⟨bytes, rest, -, e⟩ | ⟨r, rest, -, -, e⟩ | ⟨acts, -, e⟩ <;> rw [e] at h
  · cases h
    exact State.inv_engineReset hs.table_wf hs.table_below
  · cases h
    exact (hs.withRequests s.port rest).fillTable bytes
  · cases h
    exact hs.withRequests (some r) rest
  · have hacts : State.Inv { s with host := acts } := hs.withRequests s.port acts
    rcases engineStep_effect h with rfl | ⟨ev, he, hev⟩
    · exact hacts
    · exact hacts.effect he hev

/-- Settles O48: the reset state is what engine reset makes of it, and its table is empty. -/
theorem invariantAtReset : Obligations.InvariantAtReset :=
  State.inv_engineReset (s := State.reset) rfl rfl

/-! ### Chip-select and the parameters -/

/-- Settles O51: no operation's events raise `CS`, and the host's actions but engine reset write no line. -/
theorem chipSelectNeverDeasserted : Obligations.ChipSelectNeverDeasserted := by
  intro s t h hcs hreset
  rcases step_cases s with ⟨rest, hh, -⟩ | ⟨bytes, rest, -, e⟩ | ⟨r, rest, -, -, e⟩ | ⟨acts, -, e⟩
  · exact absurd hh (hreset rest)
  · rw [e] at h; cases h; exact hcs
  · rw [e] at h; cases h; exact hcs
  · rw [e] at h
    rcases engineStep_effect h with rfl | ⟨ev, he, hev⟩
    · exact hcs
    · rw [he.follows.lines]
      exact (Lines.kept_of_events hev s.lines).cs hcs

/-- Settles O53: engine reset starts from the same parameters, and no operation changes them. -/
theorem parametersNeverChange : Obligations.ParametersNeverChange := by
  intro s t h
  rcases step_cases s with ⟨rest, -, e⟩ | ⟨bytes, rest, -, e⟩ | ⟨r, rest, -, -, e⟩ | ⟨acts, -, e⟩ <;> rw [e] at h
  · cases h; rfl
  · cases h; rfl
  · cases h; rfl
  · rcases engineStep_effect h with rfl | ⟨ev, he, -⟩
    · rfl
    · exact he.follows.cfg

/-! ### Single values -/

/-- Settles O33. -/
theorem engineResetRestoresResetValues : Obligations.EngineResetRestoresResetValues := fun _ _ hh =>
  ⟨_, step_engineReset hh, rfl, rfl, rfl, rfl, rfl, rfl, rfl, rfl, rfl, rfl, rfl, rfl, rfl, rfl⟩

/-- Settles O34. -/
theorem resetStateValues : Obligations.ResetStateValues :=
  ⟨rfl, rfl, rfl, rfl, rfl, rfl, rfl, rfl, rfl, rfl, rfl, rfl, rfl, rfl⟩

/-- Settles O35, by the three phases. -/
theorem statusFollowsPhase : Obligations.StatusFollowsPhase := by
  intro s
  cases hp : s.phase <;> simp [State.status, hp]

/-- Settles O36. -/
theorem idleEngineWaits : Obligations.IdleEngineWaits := fun _ hh hready hport =>
  (step_nil hh).trans (engineStep_idle hready hport)

/-- Settles O12. -/
theorem dataLinesCarryTheirBits : Obligations.DataLinesCarryTheirBits := by
  intro s i
  simp [State.dataPort, levelOf]

end Sys2Proof.Machine
end

section
/-! PROOFS. What no step depends on: the latches and `DLY` (10_state.md R28), in IDLE also the interpreter's registers
(R38), and the controller (R35, 20_memory.md R67). Settles O57, O58, O59. -/

namespace Sys2Proof.Machine

/-- The steps of two states with the same host and the same port are steps of the same kind. -/
theorem step_pair {s s' : State} (hhost : s'.host = s.host) (hport : s'.port = s.port) :
    (∃ rest, step s = .next { s with host := rest }.engineReset ∧
      step s' = .next { s' with host := rest }.engineReset) ∨
    (∃ bytes rest, step s = .next ({ s with host := rest }.fillTable bytes) ∧
      step s' = .next ({ s' with host := rest }.fillTable bytes)) ∨
    (∃ r rest, step s = .next { s with host := rest, port := some r } ∧
      step s' = .next { s' with host := rest, port := some r }) ∨
    (∃ acts, step s = engineStep { s with host := acts } ∧ step s' = engineStep { s' with host := acts }) := by
  cases hh : s.host with
  | nil => exact .inr (.inr (.inr ⟨s.host, step_nil hh, by rw [step_nil (hhost.trans hh), ← hhost]⟩))
  | cons act rest =>
    have hh' := hhost.trans hh
    cases act with
    | engineReset => exact .inl ⟨rest, step_engineReset hh, step_engineReset hh'⟩
    | fillTable bytes => exact .inr (.inl ⟨bytes, rest, step_fillTable hh, step_fillTable hh'⟩)
    | pause => exact .inr (.inr (.inr ⟨rest, step_pause hh, step_pause hh'⟩))
    | present r =>
      rcases Option.eq_none_or_eq_some s.port with hp | ⟨q, hp⟩
      · exact .inr (.inr (.inl ⟨r, rest, step_present_free hh hp, step_present_free hh' (hport.trans hp)⟩))
      · exact .inr (.inr (.inr ⟨s.host, step_present_occupied hh hp,
          by rw [step_present_occupied hh' (hport.trans hp), ← hhost]⟩))

/-! ### The latches and `DLY` -/

/-- The events of a request depend on the parameters only (`requestEvents`), and so are the same in both states. -/
theorem exec_request_otherLatches {i : Instr} {s t : State} (hi : i.isRequest = true) (h : exec i s = .next t)
    (la : Latches) (dly : Bool) :
    ∃ la' dly', exec i { s with latches := la, dly := dly } = .next { t with latches := la', dly := dly' } := by
  have hs := ready_of_exec_request hi h
  rw [exec_request_next hi h, exec_request (s := { s with latches := la, dly := dly }) hi hs]
  dsimp only
  generalize requestEvents s.cfg i = ev
  cases i <;> exact ⟨_, _, rfl⟩

/-- A record of format T writes its opcode, its length byte and `DLY` before it reads them (42_init_table.md R127 to
R129). -/
theorem State.record_otherLatches (s : State) (op l : Byte) (args : List Byte) (la : Latches) (dly : Bool) :
    ∃ la' dly', State.record { s with latches := la, dly := dly } op l args =
      { s.record op l args with latches := la', dly := dly' } := by
  simp only [State.record, State.runLength, State.runArgs, State.takeOpcode_eq, State.takeLength_eq,
    State.dispatchArgs_eq]
  split_ifs <;> exact ⟨_, _, rfl⟩

theorem State.haltRecord_otherLatches (s : State) (la : Latches) (dly : Bool) :
    ∃ la' dly', State.haltRecord { s with latches := la, dly := dly } =
      { s.haltRecord with latches := la', dly := dly' } := by
  simp only [State.haltRecord, State.takeOpcode_end]
  split_ifs <;> exact ⟨_, _, rfl⟩

theorem State.cutShort_otherLatches (s : State) (e : DecodeError) (la : Latches) (dly : Bool) :
    ∃ la' dly', State.cutShort { s with latches := la, dly := dly } e =
      { s.cutShort e with latches := la', dly := dly' } := by
  cases e <;> simp only [State.cutShort, State.takeOpcode_eq, State.takeLength_eq] <;> exact ⟨_, _, rfl⟩

theorem exec_record_otherLatches {i : Instr} {s t : State} (hi : i.isRequest = false) (h : exec i s = .next t)
    (la : Latches) (dly : Bool) :
    ∃ la' dly', exec i { s with latches := la, dly := dly } = .next { t with latches := la', dly := dly' } := by
  have hd := due_of_exec_record hi h
  have after : ∃ la' dly', State.afterRecord { s with latches := la, dly := dly } i =
      { s.afterRecord i with latches := la', dly := dly' } := by
    cases i with
    | ent | entd => exact s.record_otherLatches ..
    | endRec => exact s.haltRecord_otherLatches ..
    | _ => cases hi
  obtain ⟨la', dly', e⟩ := after
  exact ⟨la', dly', by rw [exec_record_next hi h, exec_record (s := { s with latches := la, dly := dly }) hi hd, e]⟩

theorem engineStep_otherLatches {s t : State} (hopcode : s.phase = .run → s.istate = .sOpc) (h : engineStep s = .next t)
    (la : Latches) (dly : Bool) :
    ∃ la' dly', engineStep { s with latches := la, dly := dly } = .next { t with latches := la', dly := dly' } := by
  rcases engineStep_forms h with ⟨rfl, hp | ⟨hp, hq⟩⟩ | ⟨r, i, hp, hq, hd, hexec⟩ | ⟨r, hp, hq, ho, rfl⟩ |
    ⟨i, rest, hd, hdec, hexec⟩ | ⟨e, hd, hdec, rfl⟩ | ⟨hp, hi, -⟩ | ⟨hp, hi, -⟩ | ⟨hp, hi, -⟩
  · exact ⟨la, dly, engineStep_faulted hp⟩
  · exact ⟨la, dly, engineStep_idle hp hq⟩
  · rw [engineStep_accept (s := { s with latches := la, dly := dly }) hp hq hd]
    exact exec_request_otherLatches (decodeRequest_isRequest hd) hexec la dly
  · exact ⟨la, dly, engineStep_reserved hp hq ho⟩
  · rw [engineStep_record (s := { s with latches := la, dly := dly }) hd hdec]
    exact exec_record_otherLatches (decodeRecord_isRecord hdec) hexec la dly
  · rw [engineStep_cut (s := { s with latches := la, dly := dly }) hd hdec]
    obtain ⟨la', dly', e'⟩ := s.cutShort_otherLatches e la dly
    exact ⟨la', dly', by rw [e']⟩
  · simp [hopcode hp] at hi
  · simp [hopcode hp] at hi
  · simp [hopcode hp] at hi

/-- Settles O57: the host's actions read neither, and between records the engine writes both before it reads them. -/
theorem latchesNotReadBeforeWritten : Obligations.LatchesNotReadBeforeWritten := by
  intro s t la dly hopcode h
  rcases step_pair (s := s) (s' := { s with latches := la, dly := dly }) rfl rfl with
    ⟨rest, e, e'⟩ | ⟨bytes, rest, e, e'⟩ | ⟨r, rest, e, e'⟩ | ⟨acts, e, e'⟩ <;> rw [e] at h <;> rw [e']
  · cases h; exact ⟨_, _, rfl⟩
  · cases h; exact ⟨_, _, rfl⟩
  · cases h; exact ⟨_, _, rfl⟩
  · exact engineStep_otherLatches (s := { s with host := acts }) hopcode h la dly

/-! ### The interpreter's registers in IDLE -/

theorem exec_request_otherRegisters {i : Instr} {s t : State} (hi : i.isRequest = true) (h : exec i s = .next t)
    (la : Latches) (cur : Nat) (ist : IState) (dly : Bool) :
    ∃ la' cur' ist' dly', exec i { s with latches := la, cur := cur, istate := ist, dly := dly } =
      .next { t with latches := la', cur := cur', istate := ist', dly := dly' } ∧
      (t.phase = .run → cur' = t.cur ∧ ist' = t.istate) := by
  have hs := ready_of_exec_request hi h
  rw [exec_request_next hi h,
    exec_request (s := { s with latches := la, cur := cur, istate := ist, dly := dly }) hi hs]
  dsimp only
  generalize requestEvents s.cfg i = ev
  cases i with
  | init base => exact ⟨_, _, _, _, rfl, fun _ => ⟨rfl, rfl⟩⟩
  | _ => exact ⟨_, _, _, _, rfl, fun hrun => nomatch hrun⟩

theorem engineStep_otherRegisters {s t : State} (hs : s.ready) (h : engineStep s = .next t)
    (la : Latches) (cur : Nat) (ist : IState) (dly : Bool) :
    ∃ la' cur' ist' dly', engineStep { s with latches := la, cur := cur, istate := ist, dly := dly } =
      .next { t with latches := la', cur := cur', istate := ist', dly := dly' } ∧
      (t.phase = .run → cur' = t.cur ∧ ist' = t.istate) := by
  have not_run {p : Prop} (hrun : s.phase = .run) : p := by simp [show s.phase = .idle from hs] at hrun
  rcases engineStep_forms h with ⟨rfl, hp | ⟨-, hq⟩⟩ | ⟨r, i, -, hq, hd, hexec⟩ | ⟨r, -, hq, ho, rfl⟩ |
    ⟨-, -, hd, -⟩ | ⟨-, hd, -⟩ | ⟨hp, -⟩ | ⟨hp, -⟩ | ⟨hp, -⟩
  · exact ⟨la, cur, ist, dly, engineStep_faulted hp, not_run⟩
  · exact ⟨la, cur, ist, dly, engineStep_idle hs hq, not_run⟩
  · rw [engineStep_accept (s := { s with latches := la, cur := cur, istate := ist, dly := dly }) hs hq hd]
    exact exec_request_otherRegisters (decodeRequest_isRequest hd) hexec la cur ist dly
  · exact ⟨la, cur, ist, dly, engineStep_reserved hs hq ho, fun hrun => nomatch hrun⟩
  · exact not_run hd.1
  · exact not_run hd.1
  · exact not_run hp
  · exact not_run hp
  · exact not_run hp

/-- Settles O58: in IDLE the engine's part of a step is a request at most, and INIT alone leaves the engine in RUN, with
`CUR` and `ISTATE` written. -/
theorem onlyLinesPersist : Obligations.OnlyLinesPersist := by
  intro s t la cur ist dly hs h
  have not_run {u : State} (hu : u.phase = .idle) {p : Prop} (hrun : u.phase = .run) : p := by simp [hu] at hrun
  rcases step_pair (s := s) (s' := { s with latches := la, cur := cur, istate := ist, dly := dly }) rfl rfl with
    ⟨rest, e, e'⟩ | ⟨bytes, rest, e, e'⟩ | ⟨r, rest, e, e'⟩ | ⟨acts, e, e'⟩ <;> rw [e] at h <;> rw [e']
  · cases h; exact ⟨_, _, _, _, rfl, not_run rfl⟩
  · cases h; exact ⟨_, _, _, _, rfl, not_run hs⟩
  · cases h; exact ⟨_, _, _, _, rfl, not_run hs⟩
  · exact engineStep_otherRegisters (s := { s with host := acts }) hs h la cur ist dly

/-! ### The controller -/

theorem exec_request_otherController {i : Instr} {s t : State} (hi : i.isRequest = true) (h : exec i s = .next t)
    (tx : List Xfer) (lc : Option Byte) :
    ∃ tx' lc', exec i { s with tx := tx, lastCmd := lc } = .next { t with tx := tx', lastCmd := lc' } := by
  have hs := ready_of_exec_request hi h
  rw [exec_request_next hi h, exec_request (s := { s with tx := tx, lastCmd := lc }) hi hs]
  dsimp only
  generalize requestEvents s.cfg i = ev
  cases i <;> exact ⟨_, _, rfl⟩

theorem State.runArgs_otherController (s : State) (args : List Byte) (tx : List Xfer) (lc : Option Byte) :
    ∃ tx' lc', State.runArgs { s with tx := tx, lastCmd := lc } args =
      { s.runArgs args with tx := tx', lastCmd := lc' } := by
  simp only [State.runArgs, State.dispatchArgs_eq]
  split_ifs <;> exact ⟨_, _, rfl⟩

theorem State.runLength_otherController (s : State) (l : Byte) (args : List Byte) (tx : List Xfer) (lc : Option Byte) :
    ∃ tx' lc', State.runLength { s with tx := tx, lastCmd := lc } l args =
      { s.runLength l args with tx := tx', lastCmd := lc' } := by
  unfold State.runLength
  split_ifs
  · exact ⟨_, _, rfl⟩
  · exact (s.takeLength l).runArgs_otherController args tx lc

theorem State.record_otherController (s : State) (op l : Byte) (args : List Byte) (tx : List Xfer) (lc : Option Byte) :
    ∃ tx' lc', State.record { s with tx := tx, lastCmd := lc } op l args =
      { s.record op l args with tx := tx', lastCmd := lc' } := by
  have htake : State.takeOpcode { s with tx := tx, lastCmd := lc } op =
      { s.takeOpcode op with tx := tx, lastCmd := lc } := by simp only [State.takeOpcode_eq]
  unfold State.record
  split_ifs
  · exact ⟨_, _, rfl⟩
  · rw [htake]
    exact (s.takeOpcode op).runLength_otherController l args tx lc

theorem State.haltRecord_otherController (s : State) (tx : List Xfer) (lc : Option Byte) :
    ∃ tx' lc', State.haltRecord { s with tx := tx, lastCmd := lc } =
      { s.haltRecord with tx := tx', lastCmd := lc' } := by
  simp only [State.haltRecord, State.takeOpcode_end]
  split_ifs <;> exact ⟨_, _, rfl⟩

theorem State.cutShort_otherController (s : State) (e : DecodeError) (tx : List Xfer) (lc : Option Byte) :
    ∃ tx' lc', State.cutShort { s with tx := tx, lastCmd := lc } e =
      { s.cutShort e with tx := tx', lastCmd := lc' } := by
  cases e <;> simp only [State.cutShort, State.takeOpcode_eq, State.takeLength_eq] <;> exact ⟨_, _, rfl⟩

theorem exec_record_otherController {i : Instr} {s t : State} (hi : i.isRequest = false) (h : exec i s = .next t)
    (tx : List Xfer) (lc : Option Byte) :
    ∃ tx' lc', exec i { s with tx := tx, lastCmd := lc } = .next { t with tx := tx', lastCmd := lc' } := by
  have hd := due_of_exec_record hi h
  have after : ∃ tx' lc', State.afterRecord { s with tx := tx, lastCmd := lc } i =
      { s.afterRecord i with tx := tx', lastCmd := lc' } := by
    cases i with
    | ent | entd => exact s.record_otherController ..
    | endRec => exact s.haltRecord_otherController ..
    | _ => cases hi
  obtain ⟨tx', lc', e⟩ := after
  exact ⟨tx', lc', by rw [exec_record_next hi h, exec_record (s := { s with tx := tx, lastCmd := lc }) hi hd, e]⟩

theorem engineStep_otherController {s t : State} (h : engineStep s = .next t) (tx : List Xfer) (lc : Option Byte) :
    ∃ tx' lc', engineStep { s with tx := tx, lastCmd := lc } = .next { t with tx := tx', lastCmd := lc' } := by
  have of_state {f : State → State} (hstep : engineStep { s with tx := tx, lastCmd := lc } =
      .next (f { s with tx := tx, lastCmd := lc }))
      (hf : ∃ tx' lc', f { s with tx := tx, lastCmd := lc } = { f s with tx := tx', lastCmd := lc' }) :
      ∃ tx' lc', engineStep { s with tx := tx, lastCmd := lc } = .next { f s with tx := tx', lastCmd := lc' } := by
    obtain ⟨tx', lc', e⟩ := hf
    exact ⟨tx', lc', by rw [hstep, e]⟩
  rcases engineStep_forms h with ⟨rfl, hp | ⟨hp, hq⟩⟩ | ⟨r, i, hp, hq, hd, hexec⟩ | ⟨r, hp, hq, ho, rfl⟩ |
    ⟨i, rest, hd, hdec, hexec⟩ | ⟨e, hd, hdec, rfl⟩ | ⟨hp, hi, rfl⟩ | ⟨hp, hi, rfl⟩ | ⟨hp, hi, rfl⟩
  · exact ⟨tx, lc, engineStep_faulted hp⟩
  · exact ⟨tx, lc, engineStep_idle hp hq⟩
  · rw [engineStep_accept (s := { s with tx := tx, lastCmd := lc }) hp hq hd]
    exact exec_request_otherController (decodeRequest_isRequest hd) hexec tx lc
  · exact ⟨tx, lc, engineStep_reserved hp hq ho⟩
  · rw [engineStep_record (s := { s with tx := tx, lastCmd := lc }) hd hdec]
    exact exec_record_otherController (decodeRecord_isRecord hdec) hexec tx lc
  · exact of_state (f := (State.cutShort · e)) (engineStep_cut hd hdec) (s.cutShort_otherController e tx lc)
  · exact of_state (f := State.resumeLength) (engineStep_length hp hi) (s.runLength_otherController _ _ tx lc)
  · exact of_state (f := State.resumeArgs) (engineStep_args hp hi) (s.runArgs_otherController _ tx lc)
  · exact ⟨tx, lc, engineStep_halt hp hi⟩

/-- Settles O59: no part of a step reads `TX` or `LASTCMD`; they are only what the events append and leave. -/
theorem controllerNeverObserved : Obligations.ControllerNeverObserved := by
  intro s t tx lc h
  rcases step_pair (s := s) (s' := { s with tx := tx, lastCmd := lc }) rfl rfl with
    ⟨rest, e, e'⟩ | ⟨bytes, rest, e, e'⟩ | ⟨r, rest, e, e'⟩ | ⟨acts, e, e'⟩ <;> rw [e] at h <;> rw [e']
  · cases h; exact ⟨_, _, rfl⟩
  · cases h; exact ⟨_, _, rfl⟩
  · cases h; exact ⟨_, _, rfl⟩
  · exact engineStep_otherController (s := { s with host := acts }) h tx lc

end Sys2Proof.Machine
end

section
/-! PROOFS. Table memory and the traces over one step: the table is the host's alone to change (20_memory.md R51), every
read is of the byte at the cursor and below `TABLE_LEN` (R52, 42_init_table.md R133), and the traces only grow
(20_memory.md R61). Settles O54, O55, O56. -/

namespace Sys2Proof.Machine

/-! ### The table -/

/-- Settles O54: no instruction's effect is on the table, and of the host's actions only the filling is. -/
theorem engineNeverWritesTable : Obligations.EngineNeverWritesTable := by
  refine fun s t => ⟨fun i h => ?_, fun hfill h => ?_⟩
  · obtain ⟨ev, he, -⟩ := exec_effect h
    exact ⟨he.follows.tableLen, fun a => by rw [he.follows.table]⟩
  · rcases step_cases s with ⟨rest, -, e⟩ | ⟨bytes, rest, hh, -⟩ | ⟨r, rest, -, -, e⟩ | ⟨acts, -, e⟩
    · rw [e] at h; cases h; exact ⟨rfl, rfl⟩
    · exact absurd hh (hfill bytes rest)
    · rw [e] at h; cases h; exact ⟨rfl, rfl⟩
    · rw [e] at h
      rcases engineStep_effect h with rfl | ⟨ev, he, -⟩
      · exact ⟨rfl, rfl⟩
      · exact ⟨he.follows.table, he.follows.tableLen⟩

/-! ### The reads -/

/-- Between `s` and `t` the bytes from the cursor of `s` on have been read, some number of them, all in the table. -/
def State.ReadsTo (s t : State) : Prop :=
  ∃ n, t.rdLog = s.rdLog ++ List.range' s.cur n ∧ (n ≠ 0 → s.cur + n ≤ s.tableLen)

theorem State.ReadsTo.of_rdLog_eq {s t : State} (h : t.rdLog = s.rdLog) : s.ReadsTo t :=
  ⟨0, by simp [h], nofun⟩

/-- One byte read at the cursor, which moves on to the next byte, and then the reads from there. -/
theorem State.ReadsTo.of_byte {s u t : State} (hlt : s.cur < s.tableLen) (hlog : u.rdLog = s.rdLog ++ [s.cur])
    (hcur : u.cur = s.cur + 1) (hlen : u.tableLen = s.tableLen) : u.ReadsTo t → s.ReadsTo t := by
  rintro ⟨n, hreads, hbound⟩
  refine ⟨n + 1, ?_, fun _ => by omega⟩
  rw [hreads, hlog, hcur, List.range'_succ, List.append_assoc, List.singleton_append]

theorem State.readsTo_resumeArgs (s : State) : s.ReadsTo s.resumeArgs := by
  rcases s.resumeArgs_forms with e | ⟨hfit, e⟩ <;> rw [e]
  · exact .of_rdLog_eq rfl
  · exact ⟨s.latches.cnt.toNat, by rw [State.dispatchArgs_eq], fun _ => hfit⟩

theorem State.readsTo_resumeLength (s : State) : s.ReadsTo s.resumeLength := by
  rcases s.resumeLength_forms with e | ⟨hlt, e⟩ <;> rw [e]
  · exact .of_rdLog_eq rfl
  · exact .of_byte hlt (by rw [State.takeLength_eq]) (by rw [State.takeLength_eq]) (by rw [State.takeLength_eq])
      (State.readsTo_resumeArgs _)

/-- At an opcode position: nothing is left to read, or the terminator is read, or an opcode and then what `S_LEN`
reads. -/
theorem engineStep_readsTo_of_due {s t : State} (hd : s.recordDue) (h : engineStep s = .next t) : s.ReadsTo t := by
  cases hrem : s.remaining with
  | nil =>
    rw [engineStep_cut hd (e := .noOpcode) (by rw [hrem]; rfl)] at h
    cases h
    exact .of_rdLog_eq rfl
  | cons op more =>
    obtain ⟨hlt, -⟩ := State.remaining_eq_cons hrem
    by_cases hop : op = 0#8
    · subst hop
      rw [engineStep_sentinel hd hrem] at h
      cases h
      exact ⟨1, by rw [State.takeOpcode_end]; rfl, fun _ => hlt⟩
    · rw [engineStep_entry hd hop hrem] at h
      cases h
      exact .of_byte hlt (by rw [State.takeOpcode_entry s hop]) (by rw [State.takeOpcode_entry s hop])
        (by rw [State.takeOpcode_entry s hop]) (State.readsTo_resumeLength _)

theorem engineStep_readsTo_of_run {s t : State} (hp : s.phase = .run) (h : engineStep s = .next t) : s.ReadsTo t := by
  cases hi : s.istate with
  | sOpc => exact engineStep_readsTo_of_due ⟨hp, hi⟩ h
  | sLen => rw [engineStep_length hp hi] at h; cases h; exact s.readsTo_resumeLength
  | sArg => rw [engineStep_args hp hi] at h; cases h; exact s.readsTo_resumeArgs
  | sHalt => rw [engineStep_halt hp hi] at h; cases h; exact .of_rdLog_eq rfl

theorem exec_request_rdLog {i : Instr} {s t : State} (hi : i.isRequest = true) (h : exec i s = .next t) :
    t.rdLog = s.rdLog := by
  rw [exec_request_next hi h]
  generalize requestEvents s.cfg i = ev
  cases i <;> rfl

/-- Outside RUN there is no cursor, and nothing is read (10_state.md R29). -/
theorem engineStep_rdLog_of_not_run {s t : State} (hp : s.phase ≠ .run) (h : engineStep s = .next t) :
    t.rdLog = s.rdLog := by
  rcases engineStep_forms h with ⟨rfl, -⟩ | ⟨r, i, -, -, hd, hexec⟩ | ⟨r, -, -, -, rfl⟩ | ⟨i, rest, hd, -⟩ |
    ⟨e, hd, -⟩ | ⟨hrun, -⟩ | ⟨hrun, -⟩ | ⟨hrun, -⟩
  · rfl
  · exact exec_request_rdLog (s := { s with port := none }) (decodeRequest_isRequest hd) hexec
  · rfl
  · exact absurd hd.1 hp
  · exact absurd hd.1 hp
  · exact absurd hrun hp
  · exact absurd hrun hp
  · exact absurd hrun hp

/-- Settles O55: a running interpreter reads at its cursor and checks each bound first, no other step reads. -/
theorem readsStayInTable : Obligations.ReadsStayInTable := by
  intro s t h hreset
  suffices hreads : t.rdLog = s.rdLog ∨ s.phase = .run ∧ s.ReadsTo t by
    rcases hreads with hnone | ⟨hp, n, hlog, hbound⟩
    · exact ⟨0, by simp [hnone], nofun⟩
    · exact ⟨n, hlog, fun hn => ⟨hp, hbound hn⟩⟩
  rcases step_cases s with ⟨rest, hh, -⟩ | ⟨bytes, rest, -, e⟩ | ⟨r, rest, -, -, e⟩ | ⟨acts, -, e⟩
  · exact absurd hh (hreset rest)
  · rw [e] at h; cases h; exact .inl rfl
  · rw [e] at h; cases h; exact .inl rfl
  · rw [e] at h
    by_cases hp : s.phase = .run
    · exact .inr ⟨hp, engineStep_readsTo_of_run (s := { s with host := acts }) hp h⟩
    · exact .inl (engineStep_rdLog_of_not_run (s := { s with host := acts }) hp h)

/-! ### The traces -/

/-- The controller forgets nothing it has latched. -/
theorem BusView.tx_prefix_foldl_read (ev : List Event) (b : BusView) : b.tx <+: (ev.foldl BusView.read b).tx := by
  induction ev generalizing b with
  | nil => exact List.prefix_rfl
  | cons e ev ih => exact (List.prefix_append b.tx _).trans (ih (b.read e))

theorem State.Follows.ev_prefix {s t : State} {ev : List Event} (h : s.Follows t ev) : s.ev <+: t.ev :=
  ⟨ev, h.ev.symm⟩

theorem State.Follows.tx_prefix {s t : State} {ev : List Event} (h : s.Follows t ev) : s.tx <+: t.tx := by
  rw [show t.tx = (ev.foldl BusView.read s.busView).tx from congrArg BusView.tx h.busView]
  exact BusView.tx_prefix_foldl_read ev s.busView

/-- Settles O56: what an operation plays is appended to `EV`, what the controller latches of it to `TX`, and what is
read to `RD_LOG` (`readsStayInTable`). -/
theorem tracesOnlyGrow : Obligations.TracesOnlyGrow := by
  intro s t h hreset
  obtain ⟨n, hreads, -⟩ := readsStayInTable s t h hreset
  suffices hbus : s.ev <+: t.ev ∧ s.tx <+: t.tx from ⟨hbus.1, hbus.2, hreads ▸ List.prefix_append ..⟩
  rcases step_cases s with ⟨rest, hh, -⟩ | ⟨bytes, rest, -, e⟩ | ⟨r, rest, -, -, e⟩ | ⟨acts, -, e⟩
  · exact absurd hh (hreset rest)
  · rw [e] at h; cases h; exact ⟨List.prefix_rfl, List.prefix_rfl⟩
  · rw [e] at h; cases h; exact ⟨List.prefix_rfl, List.prefix_rfl⟩
  · rw [e] at h
    rcases engineStep_effect h with rfl | ⟨ev, he, -⟩
    · exact ⟨List.prefix_rfl, List.prefix_rfl⟩
    · exact ⟨he.follows.ev_prefix, he.follows.tx_prefix⟩

end Sys2Proof.Machine
end

section
/-! PROOFS. Encoding and decoding (30_encoding.md R70 to R87): the length byte's fields, the record decoder on whole and
on cut records, the assembler, the reading of a table, and 16-bit operands. Settles O1 to O10. -/

namespace Sys2Proof.Machine

/-! ### The length byte (R73) -/

theorem lengthCount_toNat_eq_mask (l : Byte) : (lengthCount l).toNat = (l &&& 0x7F).toNat := by
  rw [lengthCount_toNat, BitVec.toNat_and]
  exact (Nat.and_two_pow_sub_one_eq_mod l.toNat 7).symm

theorem lengthByte_false (n : Nat) : lengthByte false n = BitVec.ofNat 8 n := BitVec.zero_or

theorem lengthByte_true (n : Nat) : lengthByte true n = 0x80 ||| BitVec.ofNat 8 n := rfl

/-- Settles O4. -/
theorem lengthByteFields : Obligations.LengthByteFields := fun l =>
  ⟨lengthCount_toNat_eq_mask l, Nat.le_of_lt_succ (lengthCount l).isLt, by rw [lengthDelay_eq_shift, decide_eq_true_eq]⟩

/-! ### Which instructions are well formed (R72, R87) -/

theorem wf_ent_iff {op : Byte} {args : List Byte} : (Instr.ent op args).wf = true ↔ op ≠ 0#8 ∧ args.length ≤ 127 := by
  simp [Instr.wf]

theorem wf_entd_iff {op : Byte} {args : List Byte} : (Instr.entd op args).wf = true ↔ op ≠ 0#8 ∧ args.length ≤ 127 :=
  wf_ent_iff

theorem isRequest_of_isEntry {i : Instr} (h : isEntry i = true) : i.isRequest = false := by
  cases i with
  | ent | entd => rfl
  | _ => cases h

/-! ### Whole records (R72 to R76) -/

/-- A record of format T as it is encoded, whichever its delay flag. -/
theorem decodeRecord_lengthByte {op : Byte} {args : List Byte} (d : Bool) (rest : List Byte) (hop : op ≠ 0#8)
    (hn : args.length ≤ 127) :
    decodeRecord (op :: lengthByte d args.length :: (args ++ rest)) =
      .ok (if d then .entd op args else .ent op args, rest) := by
  rw [decodeRecord_entry hop (lengthCount_lengthByte hn).symm, lengthDelay_lengthByte hn]

/-- Settles O2, by the three record forms. -/
theorem recordIsSelfDelimiting : Obligations.RecordIsSelfDelimiting := by
  intro i rest hwf hi
  cases i with
  | ent op args =>
    obtain ⟨hop, hn⟩ := wf_ent_iff.mp hwf
    exact decodeRecord_lengthByte false rest hop hn
  | entd op args =>
    obtain ⟨hop, hn⟩ := wf_entd_iff.mp hwf
    exact decodeRecord_lengthByte true rest hop hn
  | endRec => exact decodeRecord_end rest
  | _ => cases hi

/-- Settles O3. -/
theorem recordLengthFromItsFirstTwoBytes : Obligations.RecordLengthFromItsFirstTwoBytes := by
  refine ⟨decodeRecord_end, fun op l args rest hop hn => ?_⟩
  rw [decodeRecord_entry hop (hn.trans (lengthCount_toNat_eq_mask l).symm), lengthDelay_eq_shift]
  simp only [decide_eq_true_eq]

/-! ### Either level (R70, R81) -/

theorem encode_record {i : Instr} (hi : i.isRequest = false) : encode i = .record (recordBytes i) := by
  cases i with
  | ent | entd | endRec => rfl
  | _ => cases hi

theorem decode_encode_request {i : Instr} (hi : i.isRequest = true) : decode (encode i) = .ok (i, []) := by
  cases i with
  | ent | entd | endRec => cases hi
  | _ => rfl

/-- Settles O1: a request's code selects it again, and a record delimits itself, here with nothing after it. -/
theorem decodeOfEncode : Obligations.DecodeOfEncode := by
  intro i hwf
  cases hi : i.isRequest with
  | true => exact decode_encode_request hi
  | false =>
    have hdec := recordIsSelfDelimiting i [] hwf hi
    rw [List.append_nil] at hdec
    rw [encode_record hi]
    exact hdec

/-- Settles O5, by the eight codes. -/
theorem requestSelectedByOp : Obligations.RequestSelectedByOp := by
  rintro ⟨op, _⟩
  refine ⟨?_, ?_, ?_, ?_, ?_, ?_, ?_, ?_⟩ <;> (rintro rfl; rfl)

/-! ### Cut records (R77, R135) -/

theorem decodeRecord_noLength {op : Byte} (hop : op ≠ 0#8) : decodeRecord [op] = .error (.noLength op) := if_neg hop

theorem decodeRecord_noArgs {op l : Byte} {more : List Byte} (hop : op ≠ 0#8)
    (hlt : more.length < (lengthCount l).toNat) : decodeRecord (op :: l :: more) = .error (.noArgs op l) :=
  (if_neg hop).trans (if_pos hlt)

/-- Settles O6: what the decoder can answer (`decodeRecord_cases`) is one of the three errors or a record. -/
theorem onlyCutRecordsAreRefused : Obligations.OnlyCutRecordsAreRefused := by
  refine fun bytes e => ⟨fun h => ?_, ?_⟩
  · rcases decodeRecord_cases bytes with ⟨hb, hdec⟩ | ⟨op, hop, hb, hdec⟩ | ⟨op, l, more, hop, hb, hlt, hdec⟩ |
      ⟨rest, -, hdec⟩ | ⟨op, l, args, rest, -, -, -, hdec⟩ <;> cases hdec.symm.trans h
    · exact .inl ⟨hb, rfl⟩
    · exact .inr (.inl ⟨op, hop, hb, rfl⟩)
    · exact .inr (.inr ⟨op, l, more, hop, hb, lengthCount_toNat_eq_mask l ▸ hlt, rfl⟩)
  · rintro (⟨rfl, rfl⟩ | ⟨op, hop, rfl, rfl⟩ | ⟨op, l, more, hop, rfl, hlt, rfl⟩)
    · rfl
    · exact decodeRecord_noLength hop
    · exact decodeRecord_noArgs hop (lengthCount_toNat_eq_mask l ▸ hlt)

/-- Settles O7: each word is decoded by evaluation. -/
theorem sampleWordsDecode : Obligations.SampleWordsDecode := ⟨rfl, rfl, rfl, rfl, rfl, rfl, rfl⟩

/-! ### The assembler (R87) -/

theorem assemble_cons_record {i : Instr} (is : List Instr) (hwf : i.wf = true) (hi : i.isRequest = false) :
    assemble (i :: is) = (assemble is).map fun bytes => recordBytes i ++ bytes := by
  simp [assemble, hwf, hi]

theorem assemble_cons_of_not_wf {i : Instr} (is : List Instr) (hwf : ¬ i.wf = true) : assemble (i :: is) = none := by
  simp [assemble, hwf]

/-- Settles O8. -/
theorem assemblerBytesAndRefusals : Obligations.AssemblerBytesAndRefusals := by
  refine ⟨fun op args is hop hn => ?_, fun op args is hop hn => ?_, fun is => assemble_cons_record is rfl rfl, rfl,
    fun op args is hbad => ?_⟩
  · rw [assemble_cons_record is (wf_ent_iff.mpr ⟨hop, hn⟩) rfl, ← lengthByte_false]
    rfl
  · rw [assemble_cons_record is (wf_entd_iff.mpr ⟨hop, hn⟩) rfl, ← lengthByte_true]
    rfl
  · have not_wf : ¬ (op ≠ 0#8 ∧ args.length ≤ 127) := fun ⟨hop, hn⟩ => hbad.elim hop (Nat.not_lt.mpr hn)
    exact ⟨assemble_cons_of_not_wf is (not_wf ∘ wf_ent_iff.mp), assemble_cons_of_not_wf is (not_wf ∘ wf_entd_iff.mp)⟩

/-! ### Reading a table (R71, R75) -/

theorem tableBytes_cons (i : Instr) (is : List Instr) : tableBytes (i :: is) = recordBytes i ++ tableBytes is := by
  simp [tableBytes]

theorem parseTable_entry {i : Instr} {bytes rest : List Byte} (fuel : Nat) (hi : isEntry i = true)
    (hdec : decodeRecord bytes = .ok (i, rest)) :
    parseTable (fuel + 1) bytes =
      (parseTable fuel rest).map fun p => (i :: p.1, bytes.length - rest.length + p.2) := by
  rw [parseTable, hdec]
  cases i with
  | ent | entd => rfl
  | _ => cases hi

/-- Settles O9, by induction on the records: each is self-delimiting, so the next is read right after it. -/
theorem tableReadsBack : Obligations.TableReadsBack := by
  intro records rest h
  induction records with
  | nil => rfl
  | cons i is ih =>
    obtain ⟨⟨hi, hwf⟩, his⟩ := List.forall_mem_cons.mp h
    have hdec := recordIsSelfDelimiting i (tableBytes is ++ rest) hwf (isRequest_of_isEntry hi)
    rw [tableBytes_cons, List.append_assoc, List.length_cons, parseTable_entry _ hi hdec, ih his]
    simp

/-! ### 16-bit operands (R84) -/

theorem hi8_toNat (v : Half) : (hi8 v).toNat = v.toNat / 256 := by
  have hlt := v.isLt
  rw [hi8, BitVec.extractLsb'_toNat, Nat.shiftRight_eq_div_pow]
  omega

theorem lo8_toNat (v : Half) : (lo8 v).toNat = v.toNat % 256 := BitVec.extractLsb'_toNat ..

/-- Settles O10. -/
theorem bigEndianOperand : Obligations.BigEndianOperand :=
  ⟨fun v => ⟨hi8 v, lo8 v, rfl, hi8_toNat v, lo8_toNat v⟩, rfl⟩

end Sys2Proof.Machine
end

section
/-! PROOFS. The bus transaction (40_bus_transaction.md R100 to R107): BUSWR as one equation, the counts of the host
requests, and the controller's register writes (10_state.md R35) under whole bus writes and frames. Settles O14, O25,
O60. -/

namespace Sys2Proof.Machine

/-! ### BUSWR (R106) -/

/-- Settles O14: the code of BUSWR, and the equation of `BusWrite` inside an accepted request. -/
theorem buswrSendsOneByte : Obligations.BuswrSendsOneByte := by
  refine ⟨fun r => (requestSelectedByOp r).1, fun v s hs => ?_⟩
  obtain ⟨t, ht⟩ := exec_of_ready (i := .buswr v) rfl hs
  rw [ht, (exec_buswr_next ht).2, State.busWrite_eq]
  by_cases hcs : s.lines.cs = .low <;> simp [State.finish, busWriteEvents, hcs, hs.symm]

/-! ### What each request appends to `TX` -/

/-- The transactions of each request from the line levels `ls` (R106, R110, R111, R150, R153); RSTP and INIT's own part
have none. -/
def requestXfers (c : Config) (ls : Lines) : Instr → List Xfer
  | .buswr v => if ls.cs = .low then [{ rs := ls.rs, byte := v }] else []
  | .cmd opcode => [cmdXfer opcode]
  | .frame opcode args => frameXfers opcode args
  | .setwin x0 y0 x1 y1 => setWinXfers c x0 y0 x1 y1
  | .wrpix x y color =>
    setWinXfers c x y (addSpan x c.pixW) (addSpan y c.pixH) ++ frameXfers c.ramwrOp (be16 color)
  | .init _ | .rstp | .ent _ _ | .entd _ _ | .endRec => []

theorem exec_request_tx {i : Instr} {s t : State} (hi : i.isRequest = true) (h : exec i s = .next t) :
    t.tx = s.tx ++ requestXfers s.cfg s.lines i := by
  cases i with
  | buswr v => rw [(exec_buswr_next h).2, State.busWrite_eq]; rfl
  | cmd opcode => rw [(exec_cmd_next h).2, State.sendOpcode_eq]; rfl
  | frame opcode args => rw [(exec_frame_next h).2, State.frame_eq]; rfl
  | init base => rw [(exec_init_next h).2]; exact (List.append_nil _).symm
  | setwin x0 y0 x1 y1 => rw [(exec_setwin_next h).2, State.setWin_eq]; rfl
  | wrpix x y color => rw [(exec_wrpix_next h).2]; exact List.append_assoc ..
  | rstp => rw [(exec_rstp_next h).2]; exact (List.append_nil _).symm
  | _ => cases hi

/-! ### Counts (R107, 41_command_frame.md R118, 43_addressing_pixel.md R158) -/

theorem leastDuration_append (ev ev' : List Event) :
    leastDuration (ev ++ ev') = leastDuration ev + leastDuration ev' := by
  induction ev with
  | nil => simp [leastDuration]
  | cons e ev ih => cases e <;> simp [leastDuration, ih, Nat.add_assoc]

/-- `ev` is `events` events long, its delays are the strobe holds of `pulses` bus writes, and it writes `CS` once for
each of its `frames` frames. -/
structure BusCounts (c : Config) (ev : List Event) (events pulses frames : Nat) : Prop where
  length : ev.length = events
  duration : leastDuration ev = pulses * (c.tWrLow + c.tWrHigh)
  frames : pinWrites .cs ev = frames

/-- Counts add up over consecutive events. -/
theorem BusCounts.append {c : Config} {ev ev' : List Event} {e p f e' p' f' : Nat} (h : BusCounts c ev e p f)
    (h' : BusCounts c ev' e' p' f') : BusCounts c (ev ++ ev') (e + e') (p + p') (f + f') where
  length := by rw [List.length_append, h.length, h'.length]
  duration := by rw [leastDuration_append, h.duration, h'.duration, Nat.add_mul]
  frames := by rw [pinWrites_append, h.frames, h'.frames]

theorem BusCounts.busWrite (c : Config) (v : Byte) : BusCounts c (busWriteEvents c v) 5 1 0 :=
  ⟨rfl, by simp [busWriteEvents, leastDuration], rfl⟩

theorem BusCounts.cmd (c : Config) (opcode : Byte) : BusCounts c (cmdEvents c opcode) 7 1 1 :=
  have select : BusCounts c [.pin .cs .low, .pin .rs .low] 2 0 1 := ⟨rfl, (Nat.zero_mul _).symm, rfl⟩
  select.append (.busWrite c opcode)

theorem BusCounts.args (c : Config) (args : List Byte) :
    BusCounts c (args.flatMap (busWriteEvents c)) (5 * args.length) args.length 0 := by
  induction args with
  | nil => exact ⟨rfl, (Nat.zero_mul _).symm, rfl⟩
  | cons a args ih =>
    rw [List.flatMap_cons, List.length_cons, Nat.mul_succ, Nat.add_comm (5 * args.length), Nat.add_comm args.length]
    exact (BusCounts.busWrite c a).append ih

theorem BusCounts.frame (c : Config) (opcode : Byte) (args : List Byte) :
    BusCounts c (frameEvents c opcode args) (8 + 5 * args.length) (args.length + 1) 1 := by
  have level : BusCounts c [.pin .rs .high] 1 0 0 := ⟨rfl, (Nat.zero_mul _).symm, rfl⟩
  rw [frameEvents, List.append_cons, Nat.add_comm args.length]
  exact ((BusCounts.cmd c opcode).append level).append (.args c args)

theorem BusCounts.setWin (c : Config) (x0 y0 x1 y1 : Half) : BusCounts c (setWinEvents c x0 y0 x1 y1) 56 10 2 :=
  (BusCounts.frame c c.casetOp (rangeArgs x0 x1)).append (.frame c c.pasetOp (rangeArgs y0 y1))

theorem BusCounts.wrpix (c : Config) (x y color : Half) :
    BusCounts c (requestEvents c (.wrpix x y color)) 74 13 3 :=
  (BusCounts.setWin c x y (addSpan x c.pixW) (addSpan y c.pixH)).append (.frame c c.ramwrOp (be16 color))

theorem length_frameXfers (opcode : Byte) (args : List Byte) : (frameXfers opcode args).length = args.length + 1 := by
  simp [frameXfers]

/-- A request's step has the counts of its events and transactions, and reads no table byte. -/
theorem exec_request_counts {i : Instr} {s : State} {events xfers pulses frames : Nat} (hi : i.isRequest = true)
    (hs : s.ready) (hc : BusCounts s.cfg (requestEvents s.cfg i) events pulses frames)
    (hx : (requestXfers s.cfg s.lines i).length = xfers) :
    ∃ t ev tx, exec i s = .next t ∧ t.ev = s.ev ++ ev ∧ ev.length = events ∧ t.tx = s.tx ++ tx ∧
      tx.length = xfers ∧ t.rdLog = s.rdLog ∧
      leastDuration ev = pulses * (s.cfg.tWrLow + s.cfg.tWrHigh) ∧ pinWrites .cs ev = frames := by
  obtain ⟨t, ht⟩ := exec_of_ready hi hs
  exact ⟨t, _, _, ht, (exec_request_effect hi ht).follows.ev, hc.length, exec_request_tx hi ht, hx,
    exec_request_rdLog hi ht, hc.duration, hc.frames⟩

/-- Settles O25, each clause from the counts of its events and transactions. -/
theorem requestCounts : Obligations.RequestCounts := by
  rintro i s events xfers pulses frames hs
    (⟨v, rfl, rfl, rfl, rfl, rfl⟩ | ⟨opcode, rfl, rfl, rfl, rfl, rfl⟩ |
      ⟨opcode, args, rfl, rfl, rfl, rfl, rfl⟩ | ⟨x0, y0, x1, y1, rfl, rfl, rfl, rfl, rfl⟩ |
      ⟨x, y, color, rfl, rfl, rfl, rfl, rfl⟩)
  · exact exec_request_counts rfl hs (.busWrite s.cfg v) (apply_ite List.length ..)
  · exact exec_request_counts rfl hs (.cmd s.cfg opcode) rfl
  · exact exec_request_counts rfl hs (.frame s.cfg opcode args) (length_frameXfers opcode args)
  · exact exec_request_counts rfl hs (.setWin s.cfg x0 y0 x1 y1) rfl
  · exact exec_request_counts rfl hs (.wrpix s.cfg x y color) rfl

/-! ### The controller's register writes (10_state.md R35) -/

theorem ControllerView.foldl_read_bus (ev : List Event) (b : ControllerView) :
    (ev.foldl ControllerView.read b).bus = ev.foldl BusView.read b.bus := by
  induction ev generalizing b with
  | nil => rfl
  | cons e ev ih => exact ih (b.read e)

theorem State.Follows.refl (s : State) : s.Follows s [] := ⟨rfl, (List.append_nil _).symm, rfl, rfl, rfl⟩

/-- What the controller makes of further events depends on the bus the earlier ones left. -/
theorem State.Follows.writesAfter_append {s t : State} {ev : List Event} (h : s.Follows t ev)
    (writes : List (Byte × List Byte)) (ev' : List Event) :
    s.busView.writesAfter writes (ev ++ ev') = t.busView.writesAfter (s.busView.writesAfter writes ev) ev' := by
  have hview : ev.foldl ControllerView.read { bus := s.busView, writes := writes } =
      { bus := t.busView, writes := s.busView.writesAfter writes ev } := by
    rw [h.busView, ← ControllerView.foldl_read_bus ev { bus := s.busView, writes := writes }]
    rfl
  rw [BusView.writesAfter, List.foldl_append, hview]
  rfl

/-- Only the register write opened last takes the argument. -/
theorem addArgument_append (v : Byte) (writes : List (Byte × List Byte)) (w : Byte × List Byte)
    (ws : List (Byte × List Byte)) : addArgument v (writes ++ w :: ws) = writes ++ addArgument v (w :: ws) := by
  induction writes with
  | nil => rfl
  | cons w' writes ih => cases writes <;> exact congrArg (w' :: ·) ih

section SelectedController
variable {b : ControllerView} (hcs : b.bus.lines.cs = .low)
include hcs

/-- A whole bus write on a selected controller, its one byte read by the level of `RS` (R102, R106). -/
theorem ControllerView.foldl_read_busWrite (c : Config) (v : Byte) :
    (busWriteEvents c v).foldl ControllerView.read b =
      { bus :=
          { lines := { b.bus.lines with d := v, wr := .high }
            tx := b.bus.tx ++ [{ rs := b.bus.lines.rs, byte := v }]
            lastCmd := if b.bus.lines.rs = .low then some v else b.bus.lastCmd }
        writes :=
          if b.bus.lines.rs = .low then b.writes ++ [(v, [])]
          else if b.bus.lastCmd = none then b.writes
          else addArgument v b.writes } := by
  simp [busWriteEvents, ControllerView.read, BusView.read, BusView.latched, BusView.commandAfter, Lines.after,
    Lines.set, hcs]

/-- A byte sent at the command level opens a register write. -/
theorem ControllerView.foldl_read_commandByte (hrs : b.bus.lines.rs = .low) (c : Config) (v : Byte) :
    (busWriteEvents c v).foldl ControllerView.read b =
      { bus := { lines := { b.bus.lines with d := v, wr := .high }, tx := b.bus.tx ++ [cmdXfer v], lastCmd := some v }
        writes := b.writes ++ [(v, [])] } := by
  rw [ControllerView.foldl_read_busWrite hcs, hrs]
  rfl

/-- One sent at the data level joins the register write of the most recent command, if there is one. -/
theorem ControllerView.foldl_read_dataByte (hrs : b.bus.lines.rs = .high) (c : Config) (v : Byte) :
    (busWriteEvents c v).foldl ControllerView.read b =
      { bus :=
          { lines := { b.bus.lines with d := v, wr := .high }
            tx := b.bus.tx ++ [dataXfer v]
            lastCmd := b.bus.lastCmd }
        writes := if b.bus.lastCmd = none then b.writes else addArgument v b.writes } := by
  rw [ControllerView.foldl_read_busWrite hcs, hrs]
  rfl

end SelectedController

/-- The argument bytes of a frame join its register write in their order. -/
theorem BusView.writesAfter_args (c : Config) (writes : List (Byte × List Byte)) (op : Byte) (args : List Byte)
    {b : BusView} {sent : List Byte} (hcs : b.lines.cs = .low) (hrs : b.lines.rs = .high) (hcmd : b.lastCmd ≠ none) :
    b.writesAfter (writes ++ [(op, sent)]) (args.flatMap (busWriteEvents c)) = writes ++ [(op, sent ++ args)] := by
  induction args generalizing b sent with
  | nil => rw [List.append_nil]; rfl
  | cons a args ih =>
    rw [BusView.writesAfter, List.flatMap_cons, List.foldl_append, ControllerView.foldl_read_dataByte hcs hrs,
      if_neg hcmd, addArgument_append, List.append_cons sent]
    exact ih hcs hrs hcmd

/-- A full frame is one register write, whatever the controller has seen before (41_command_frame.md R116). -/
theorem ControllerView.writes_foldl_read_frame (c : Config) (op : Byte) (args : List Byte) (b : ControllerView) :
    ((frameEvents c op args).foldl ControllerView.read b).writes = b.writes ++ [(op, args)] := by
  simp only [frameEvents, cmdEvents, List.foldl_append, List.foldl_cons]
  rw [ControllerView.foldl_read_commandByte rfl rfl]
  exact BusView.writesAfter_args c b.writes op args rfl rfl (Option.some_ne_none op)

theorem eq_addSpan_of_toNat {v w : Half} {span : Nat} (h : w.toNat = (v.toNat + span) % 65536) : w = addSpan v span :=
  BitVec.eq_of_toNat_eq (h.trans (BitVec.toNat_ofNat (v.toNat + span) 16).symm)

/-- WRPIX is three register writes: column range, row range, memory write (43_addressing_pixel.md R157, R159). -/
theorem BusView.writesAfter_wrpix (c : Config) (x y color : Half) (b : BusView) (writes : List (Byte × List Byte)) :
    b.writesAfter writes (requestEvents c (.wrpix x y color)) = writes ++
      [(c.casetOp, rangeArgs x (addSpan x c.pixW)), (c.pasetOp, rangeArgs y (addSpan y c.pixH)),
        (c.ramwrOp, be16 color)] := by
  simp [BusView.writesAfter, requestEvents, setWinEvents, List.foldl_append, ControllerView.writes_foldl_read_frame]

/-- RSTP sends nothing. -/
theorem BusView.writesAfter_rstp (c : Config) (b : BusView) (writes : List (Byte × List Byte)) :
    b.writesAfter writes (rstpEvents c) = writes := by
  simp [BusView.writesAfter, rstpEvents, ControllerView.read, BusView.latched]

/-! ### A BUSWR data byte after whatever came before (R106 (b)) -/

/-- BUSWR on a selected controller at the data level, after events `ev`. -/
theorem exec_buswr_data_of_follows {s t : State} {ev : List Event} (h : s.Follows t ev) (hs : t.ready)
    (hcs : t.lines.cs = .low) (hrs : t.lines.rs = .high) (v : Byte) :
    ∃ u ev', exec (.buswr v) t = .next u ∧ u.ev = s.ev ++ ev' ∧ u.tx = t.tx ++ [dataXfer v] ∧ u.lastCmd = t.lastCmd ∧
      ∀ writes, s.busView.writesAfter writes ev' =
        if t.lastCmd = none then s.busView.writesAfter writes ev
        else addArgument v (s.busView.writesAfter writes ev) := by
  refine ⟨_, ev ++ busWriteEvents t.cfg v, buswrSendsOneByte.2 v t hs, ?_, ?_, ?_, fun writes => ?_⟩
  · rw [← List.append_assoc, ← h.ev]; rfl
  · simp [hcs, hrs, dataXfer]
  · simp [hrs]
  · rw [h.writesAfter_append, BusView.writesAfter, ControllerView.foldl_read_dataByte hcs hrs]
    rfl

/-- Settles O60: the byte joins what the events before it opened last, and RSTP has taken the command away. -/
theorem buswrJoinsMostRecentCommand : Obligations.BuswrJoinsMostRecentCommand := by
  refine ⟨fun v c s hs hcs hrs hcmd => ?_, fun x y color x1 y1 v s t hx hy ht => ?_, fun v s t hcs hrs ht => ?_⟩
  · obtain ⟨u, ev, hu, hev, htx, hlast, hwrites⟩ := exec_buswr_data_of_follows (.refl s) hs hcs hrs v
    refine ⟨u, ev, hu, hev, htx, hlast.trans hcmd, fun writes => ?_⟩
    rw [hwrites, hcmd]
    rfl
  · obtain rfl := eq_addSpan_of_toNat hx
    obtain rfl := eq_addSpan_of_toNat hy
    have hf := (exec_request_effect rfl ht).follows
    obtain ⟨hs, rfl⟩ := exec_wrpix_next ht
    obtain ⟨u, ev, hu, hev, htx, hlast, hwrites⟩ := exec_buswr_data_of_follows hf hs rfl rfl v
    refine ⟨u, ev, hu, hev, htx, rfl, hlast, fun writes => ?_⟩
    rw [hwrites, BusView.writesAfter_wrpix]
    exact addArgument_append v writes _ _
  · have hf := (exec_request_effect rfl ht).follows
    obtain ⟨hs, rfl⟩ := exec_rstp_next ht
    obtain ⟨u, ev, hu, hev, htx, hlast, hwrites⟩ := exec_buswr_data_of_follows hf hs hcs hrs v
    exact ⟨u, ev, hu, hev, htx, hlast, fun writes => (hwrites writes).trans (BusView.writesAfter_rstp ..)⟩

end Sys2Proof.Machine
end

section
/-! PROOFS. The command frame (41_command_frame.md R110 to R117): CMD and FRAME as one equation each, where `RS` is
written in their events, and the transactions of a frame. Settles O15, O16, O27, O28, O29. -/

namespace Sys2Proof.Machine

/-! ### CMD and FRAME (R110, R111) -/

/-- Settles O15: the code of CMD, and the equation of `CmdOnly` inside an accepted request. -/
theorem cmdSendsCommandOnlyFrame : Obligations.CmdSendsCommandOnlyFrame := by
  refine ⟨fun r => (requestSelectedByOp r).2.1, fun opcode s hs => ?_⟩
  obtain ⟨t, ht⟩ := exec_of_ready (i := .cmd opcode) rfl hs
  rw [ht, (exec_cmd_next ht).2, State.sendOpcode_eq]
  simp [State.finish, cmdEvents, busWriteEvents, cmdXfer, hs.symm]

theorem lastByte_eq_getLastD (opcode : Byte) (args : List Byte) : lastByte opcode args = args.getLastD opcode := by
  induction args generalizing opcode with
  | nil => rfl
  | cons a args ih => rw [lastByte, ih, List.getLastD_cons]

/-- The events of a frame in the order of R111: selection and opcode, `RS` to 1, the arguments. -/
theorem frameEvents_eq (c : Config) (opcode : Byte) (args : List Byte) :
    frameEvents c opcode args =
      [.pin .cs .low, .pin .rs .low] ++ busWriteEvents c opcode ++ [.pin .rs .high] ++
        args.flatMap (busWriteEvents c) := rfl

/-- Settles O16: the code of FRAME, and the equation of `Frame` inside an accepted request. -/
theorem frameSendsFullFrame : Obligations.FrameSendsFullFrame := by
  refine ⟨fun r => (requestSelectedByOp r).2.2.1, fun opcode args s hs => ?_⟩
  obtain ⟨t, ht⟩ := exec_of_ready (i := .frame opcode args) rfl hs
  rw [ht, (exec_frame_next ht).2, State.frame_eq, lastByte_eq_getLastD, frameEvents_eq]
  simp only [State.finish, hs.symm]
  rfl

/-- Settles O29: without arguments the loop sends nothing, so the frame is CMD's events and the write of `RS` to 1. -/
theorem zeroArgumentFrameAgainstCmd : Obligations.ZeroArgumentFrameAgainstCmd := by
  intro opcode s hs
  refine ⟨_, _, frameSendsFullFrame.2 opcode [] s hs, cmdSendsCommandOnlyFrame.2 opcode s hs, rfl, rfl, ?_, ?_, ?_,
    rfl, rfl⟩
  · simp
  · simp [busWriteEvents]
  · simp [busWriteEvents]

/-! ### Where register-select is written (R117) -/

/-- The argument bytes of a frame write no line but the strobe (R100). -/
theorem pinWrites_args {l : Line} (hl : l ≠ .wr) (c : Config) (args : List Byte) :
    pinWrites l (args.flatMap (busWriteEvents c)) = 0 := by
  induction args with
  | nil => rfl
  | cons a args ih => simp [ih, busWriteEvents, pinWrites, hl.symm]

/-- Settles O27: the bytes sent write only the strobe, so the writes of `RS` are the ones the procedures make. -/
theorem registerSelectChangesOnce : Obligations.RegisterSelectChangesOnce := by
  refine fun opcode s t => ⟨fun h => ?_, fun args h => ?_⟩
  · exact ⟨busWriteEvents s.cfg opcode, (exec_request_effect rfl h).follows.ev, rfl⟩
  · exact ⟨cmdEvents s.cfg opcode, args.flatMap (busWriteEvents s.cfg), (exec_request_effect rfl h).follows.ev, rfl,
      rfl, pinWrites_args (by decide) .., pinWrites_args (by decide) ..⟩

/-! ### The transactions of a frame (R116) -/

theorem map_byte_frameXfers (opcode : Byte) (args : List Byte) :
    (frameXfers opcode args).map Xfer.byte = opcode :: args := by
  simp [frameXfers, cmdXfer, dataXfer, Function.comp_def]

/-- The first transaction of a frame is at the command level, each other one at the data level. -/
theorem rs_frameXfers_getElem? {opcode : Byte} {args : List Byte} {k : Nat} (hk : k < (frameXfers opcode args).length) :
    ((frameXfers opcode args)[k]?).map Xfer.rs = some (if k = 0 then .low else .high) := by
  rw [List.getElem?_eq_getElem hk]
  cases k with
  | zero => rfl
  | succ k => simp [frameXfers, dataXfer]

/-- Settles O28: a frame's events and transactions, and what the controller makes of the events. -/
theorem frameTransactions : Obligations.FrameTransactions := fun opcode args s _ h =>
  ⟨frameEvents s.cfg opcode args, frameXfers opcode args, (exec_request_effect rfl h).follows.ev,
    exec_request_tx rfl h, length_frameXfers opcode args, map_byte_frameXfers opcode args,
    fun _ => rs_frameXfers_getElem?,
    fun writes => ControllerView.writes_foldl_read_frame s.cfg opcode args { bus := s.busView, writes := writes }⟩

end Sys2Proof.Machine
end

section
/-! PROOFS. The table records (42_init_table.md R127 to R138): ENT and ENTD as one instruction with a delay flag, what
each record does when it lies in the table, and the bounds fault when it does not. Settles O20 to O24, O31, O40. -/

namespace Sys2Proof.Machine

/-! ### ENT and ENTD as one (R72, R73) -/

/-- The record of format T with delay flag `d`: ENTD or ENT. -/
def entry (d : Bool) (op : Byte) (args : List Byte) : Instr := if d then .entd op args else .ent op args

section Entry
variable (d : Bool) (op : Byte) (args : List Byte)

@[simp] theorem isEntry_entry : isEntry (entry d op args) = true := by cases d <;> rfl

@[simp] theorem argCount_entry : argCount (entry d op args) = args.length := by cases d <;> rfl

@[simp] theorem delayBit_entry : delayBit (entry d op args) = d.toNat := by cases d <;> rfl

@[simp] theorem recordXfers_entry : recordXfers (entry d op args) = frameXfers op args := by cases d <;> rfl

@[simp] theorem recordBytes_entry : recordBytes (entry d op args) = op :: lengthByte d args.length :: args := by
  cases d <;> rfl

@[simp] theorem recordEvents_entry (c : Config) :
    recordEvents c (entry d op args) = frameEvents c op args ++ settleEvents c d := by
  cases d
  · exact (List.append_nil _).symm
  · rfl

theorem afterRecord_entry (s : State) :
    s.afterRecord (entry d op args) = s.record op (lengthByte d args.length) args := by
  cases d <;> rfl

end Entry

theorem wf_entry_iff {d : Bool} {op : Byte} {args : List Byte} :
    (entry d op args).wf = true ↔ op ≠ 0#8 ∧ args.length ≤ 127 := by
  cases d
  · exact wf_ent_iff
  · exact wf_entd_iff

theorem exists_entry_of_isEntry {i : Instr} (hi : isEntry i = true) : ∃ d op args, i = entry d op args := by
  cases i with
  | ent op args => exact ⟨false, op, args, rfl⟩
  | entd op args => exact ⟨true, op, args, rfl⟩
  | _ => cases hi

theorem lengthCount_lengthByte_eq_ofNat {d : Bool} {n : Nat} (h : n ≤ 127) :
    lengthCount (lengthByte d n) = BitVec.ofNat 7 n := by
  refine BitVec.eq_of_toNat_eq ?_
  rw [lengthCount_lengthByte h, BitVec.toNat_ofNat, Nat.mod_eq_of_lt (by omega)]

/-! ### A record that lies in the table (R136, R137) -/

/-- Both forms at once; the settle delay is played when the flag is set. -/
theorem exec_entry_fits (d : Bool) {op : Byte} {args : List Byte} {s : State} (hdue : s.recordDue) (hop : op ≠ 0#8)
    (hn : args.length ≤ 127) (hfit : s.cur + 2 + args.length ≤ s.tableLen) :
    exec (entry d op args) s = .next
      { s with
        lines := { s.lines with cs := .low, rs := .high, wr := .high, d := args.getLastD op }
        latches :=
          { s.latches with
            opc := op, len := lengthByte d args.length, cnt := BitVec.ofNat 7 args.length, argi := args.length }
        cur := s.cur + 2 + args.length
        dly := d
        ev := s.ev ++ frameEvents s.cfg op args ++ settleEvents s.cfg d
        tx := s.tx ++ frameXfers op args
        rdLog := s.rdLog ++ List.range' s.cur (2 + args.length)
        lastCmd := some op } := by
  have hcount := lengthCount_lengthByte (d := d) hn
  rw [exec_record (isRequest_of_isEntry (isEntry_entry ..)) hdue, afterRecord_entry,
    State.record_fits s args hop (by rwa [hcount]), hcount, lengthDelay_lengthByte hn,
    lengthCount_lengthByte_eq_ofNat hn, lastByte_eq_getLastD]
  simp only [hdue.2]

/-! ### A record that runs past the end of the table (R135) -/

/-- `TableBounds` is taken at the first index not readable, the cursor or `TABLE_LEN`: latches, cursor, `ISTATE` and
`DLY` may have moved, at most two bytes have been read, and nothing has been sent. -/
def State.TakesTableBounds (s t : State) : Prop :=
  ∃ la cur ist dly, t =
    State.raise
      { s with
        latches := la
        cur := cur
        istate := ist
        dly := dly
        rdLog := s.rdLog ++ List.range' s.cur (min 2 (s.tableLen - s.cur)) }
      .tableBounds (max s.cur s.tableLen)

/-- Cut short at its opcode byte: nothing is read. -/
theorem State.takesTableBounds_noOpcode {s : State} (hend : s.tableLen ≤ s.cur) :
    s.TakesTableBounds (s.cutShort .noOpcode) := by
  refine ⟨s.latches, s.cur, s.istate, s.dly, ?_⟩
  rw [Nat.sub_eq_zero_of_le hend, Nat.max_eq_left hend]
  simp [State.cutShort]

/-- Cut short at its length byte: the opcode byte is read. -/
theorem State.takesTableBounds_noLength {s : State} {op : Byte} (hop : op ≠ 0#8) (hend : s.tableLen = s.cur + 1) :
    s.TakesTableBounds (s.cutShort (.noLength op)) := by
  refine ⟨{ s.latches with opc := op }, s.cur + 1, .sLen, s.dly, ?_⟩
  simp [State.cutShort, State.takeOpcode_entry s hop, hend]

/-- Cut short within its arguments: the opcode byte and the length byte are read, no argument byte. -/
theorem State.takesTableBounds_noArgs {s : State} {op l : Byte} (hop : op ≠ 0#8) (hend : s.cur + 2 ≤ s.tableLen) :
    s.TakesTableBounds (s.cutShort (.noArgs op l)) := by
  refine ⟨{ s.latches with opc := op, len := l, cnt := lengthCount l }, s.cur + 2, .sArg, lengthDelay l, ?_⟩
  rw [Nat.min_eq_left (by omega), Nat.max_eq_right (by omega)]
  simp [State.cutShort, State.takeOpcode_entry s hop, State.takeLength_eq, List.range']

/-- The record at the cursor is cut short exactly where the table ends. -/
theorem State.takesTableBounds_of_error {s : State} {e : DecodeError} (hdec : decodeRecord s.remaining = .error e) :
    s.TakesTableBounds (s.cutShort e) := by
  have hlen := s.remaining_length
  rcases (onlyCutRecordsAreRefused _ _).mp hdec with ⟨hb, rfl⟩ | ⟨op, hop, hb, rfl⟩ | ⟨op, l, more, hop, hb, -, rfl⟩
  · exact State.takesTableBounds_noOpcode (State.remaining_eq_nil hb)
  · rw [hb, List.length_singleton] at hlen
    exact State.takesTableBounds_noLength hop (by omega)
  · simp only [hb, List.length_cons] at hlen
    exact State.takesTableBounds_noArgs hop (by omega)

theorem exec_entry_takesTableBounds (d : Bool) {op : Byte} {args : List Byte} {s : State} (hdue : s.recordDue)
    (hop : op ≠ 0#8) (hn : args.length ≤ 127) (hshort : s.tableLen < s.cur + 2 + args.length) :
    ∃ t, exec (entry d op args) s = .next t ∧ s.TakesTableBounds t := by
  refine ⟨_, exec_record (isRequest_of_isEntry (isEntry_entry ..)) hdue, ?_⟩
  rw [afterRecord_entry]
  rcases s.record_cases (l := lengthByte d args.length) args hop with ⟨hfit, -⟩ | ⟨hend, e⟩ | ⟨hend, e⟩ | ⟨hend, -, e⟩
  · rw [lengthCount_lengthByte hn] at hfit
    omega
  · rw [e]; exact State.takesTableBounds_noOpcode hend
  · rw [e]; exact State.takesTableBounds_noLength hop hend
  · rw [e]; exact State.takesTableBounds_noArgs hop hend

/-! ### The obligations -/

/-- Settles O21: ENT's bytes, and the record with delay flag 0, in the table and past its end. -/
theorem entSendsFrame : Obligations.EntSendsFrame := by
  refine ⟨fun op args rest hop hn => ?_, fun op args s hdue hop hn hshort => ?_, fun op args s hdue hop hn hfit => ?_⟩
  · rw [← lengthByte_false]
    exact decodeRecord_lengthByte false rest hop hn
  · obtain ⟨t, ht, _, _, _, _, rfl⟩ := exec_entry_takesTableBounds false hdue hop hn hshort
    exact ⟨_, ht, rfl, rfl⟩
  · rw [← lengthByte_false, ← List.append_nil (s.ev ++ _)]
    exact exec_entry_fits false hdue hop hn hfit

/-- Settles O22: ENTD's bytes, and the record with delay flag 1, in the table and past its end. -/
theorem entdSendsFrameThenSettles : Obligations.EntdSendsFrameThenSettles := by
  refine ⟨fun op args rest hop hn => decodeRecord_lengthByte true rest hop hn, fun op args s hdue hop hn hshort => ?_,
    fun op args s hdue hop hn hfit => exec_entry_fits true hdue hop hn hfit⟩
  obtain ⟨t, ht, _, _, _, _, rfl⟩ := exec_entry_takesTableBounds true hdue hop hn hshort
  exact ⟨_, ht, rfl, rfl⟩

/-- Settles O24: either form past the end of the table takes the fault and nothing else. -/
theorem recordPastTableEndTraps : Obligations.RecordPastTableEndTraps := by
  intro op args i s hi hdue hop hn hshort
  obtain ⟨d, rfl⟩ : ∃ d, i = entry d op args := hi.elim (⟨false, ·⟩) (⟨true, ·⟩)
  obtain ⟨t, ht, _, _, _, _, rfl⟩ := exec_entry_takesTableBounds d hdue hop hn hshort
  exact ⟨_, ht, rfl, rfl, rfl, rfl, rfl, rfl, rfl, rfl⟩

/-- Settles O40: the three ways a record is cut short, each with what could be read before the fault. -/
theorem tableBoundsTaken : Obligations.TableBoundsTaken := by
  intro s hh hdue
  rw [step_nil hh]
  refine ⟨fun hend => ?_, fun op hop h => ?_, fun op l more hop h hlt => ?_⟩
  · have hrem : s.remaining = [] := List.eq_nil_of_length_eq_zero (by rw [s.remaining_length]; omega)
    rw [engineStep_cut hdue (e := .noOpcode) (by rw [hrem]; rfl)]
    rfl
  · rw [engineStep_cut hdue (by rw [h]; exact decodeRecord_noLength hop), State.cutShort, State.takeOpcode_entry s hop]
    rfl
  · rw [← lengthCount_toNat_eq_mask] at hlt
    rw [engineStep_cut hdue (by rw [h]; exact decodeRecord_noArgs hop hlt), State.cutShort,
      State.takeOpcode_entry s hop, State.takeLength_eq, List.append_assoc]
    rfl

theorem decodeRequest_init {r : HostReq} (hop : r.op = 3) : decodeRequest r = .ok (.init r.base) := by
  obtain ⟨-, -, -, hinit, -⟩ := requestSelectedByOp r
  exact hinit hop

/-- Settles O20. -/
theorem initStartsInterpreter : Obligations.InitStartsInterpreter :=
  ⟨fun _ => decodeRequest_init,
    fun base _ hs => State.accept_of_ready hs fun t => { t with cur := base, istate := .sOpc }⟩

/-- Settles O23. -/
theorem endHalts : Obligations.EndHalts := by
  refine ⟨decodeRecord_end, fun s hdue hfit => ?_⟩
  rw [exec_record rfl hdue, State.afterRecord, State.haltRecord_fits s hfit]

/-- Settles O31. -/
theorem stepExecutesRecordAtCursor : Obligations.StepExecutesRecordAtCursor := fun _ _ _ hh hdue hdec =>
  (step_nil hh).trans (engineStep_record hdue hdec)

end Sys2Proof.Machine
end

section
/-! PROOFS. The counts of a whole table (42_init_table.md R141): each is a sum over its records. Settles O26. -/

namespace Sys2Proof.Machine

/-- A count that adds up over two lists adds up over the pieces of a list. -/
theorem count_flatMap {α β : Type} {count : List β → Nat} (hnil : count [] = 0)
    (happend : ∀ xs ys, count (xs ++ ys) = count xs + count ys) (f : α → List β) (l : List α) :
    count (l.flatMap f) = (l.map fun a => count (f a)).sum := by
  induction l with
  | nil => exact hnil
  | cons a l ih => rw [List.flatMap_cons, happend, ih, List.map_cons, List.sum_cons]

/-! ### The counts of one record (R136, R137) -/

section Entry
variable (c : Config) (d : Bool) (op : Byte) (args : List Byte)

theorem length_recordEvents_entry : (recordEvents c (entry d op args)).length = 8 + 5 * args.length + d.toNat := by
  rw [recordEvents_entry, List.length_append, (BusCounts.frame c op args).length]
  cases d <;> rfl

theorem pinWrites_recordEvents_entry : pinWrites .cs (recordEvents c (entry d op args)) = 1 := by
  rw [recordEvents_entry, pinWrites_append, (BusCounts.frame c op args).frames]
  cases d <;> rfl

theorem leastDuration_settleEvents : leastDuration (settleEvents c d) = d.toNat * c.tSettle := by
  cases d <;> simp [settleEvents, leastDuration]

theorem leastDuration_recordEvents_entry :
    leastDuration (recordEvents c (entry d op args)) =
      (args.length + 1) * (c.tWrLow + c.tWrHigh) + d.toNat * c.tSettle := by
  rw [recordEvents_entry, leastDuration_append, (BusCounts.frame c op args).duration, leastDuration_settleEvents]

theorem length_recordBytes_entry : (recordBytes (entry d op args)).length = 2 + args.length := by
  rw [recordBytes_entry, List.length_cons, List.length_cons]
  omega

end Entry

/-! ### Sums over the records -/

/-- A sum over the records of a table is known when it is known for ENT and ENTD. -/
theorem sum_map_entries {records : List Instr} {f g : Instr → Nat} (h : ∀ i ∈ records, isEntry i = true ∧ i.wf = true)
    (hfg : ∀ d op args, f (entry d op args) = g (entry d op args)) :
    (records.map f).sum = (records.map g).sum := by
  refine congrArg List.sum (List.map_congr_left fun i hi => ?_)
  obtain ⟨d, op, args, rfl⟩ := exists_entry_of_isEntry (h i hi).1
  exact hfg d op args

/-- The bytes of a table (R133): the terminator adds one. -/
theorem length_tableBytes {records : List Instr} (h : ∀ i ∈ records, isEntry i = true ∧ i.wf = true) :
    (tableBytes records).length = (records.map fun i => 2 + argCount i).sum + 1 := by
  rw [tableBytes, List.length_append, List.length_flatMap,
    sum_map_entries (g := fun i => 2 + argCount i) h fun d op args => by
      rw [length_recordBytes_entry, argCount_entry]]
  rfl

/-! ### The obligation -/

/-- Settles O26: each count adds up over the records, and is R136's or R137's for one of them. -/
theorem tableCounts : Obligations.TableCounts := by
  intro c records h
  refine ⟨?_, ?_, ?_, length_tableBytes h, ?_⟩
  · rw [List.length_flatMap]
    exact sum_map_entries h fun d op args => by
      rw [length_recordEvents_entry, argCount_entry, delayBit_entry]
  · rw [List.length_flatMap]
    exact sum_map_entries h fun d op args => by
      rw [recordXfers_entry, length_frameXfers, argCount_entry]
  · rw [count_flatMap rfl (pinWrites_append .cs),
      sum_map_entries (g := fun _ => 1) h fun d op args => pinWrites_recordEvents_entry c d op args]
    simp
  · rw [count_flatMap rfl leastDuration_append]
    exact sum_map_entries h fun d op args => by
      rw [leastDuration_recordEvents_entry, argCount_entry, delayBit_entry]

end Sys2Proof.Machine
end

section
/-! PROOFS. INIT over a whole table (42_init_table.md R125 to R135): a run of records that lie at the cursor, then the
terminator or the bounds fault. Settles O45, O46, O47. -/

namespace Sys2Proof.Machine

/-! ### What a list of records does -/

/-- The line levels after a transaction of a frame: the controller selected, the data level to follow, the strobe idle,
the byte on the data lines (41_command_frame.md R111, R112). -/
def Lines.afterXfer (ls : Lines) (x : Xfer) : Lines :=
  { ls with cs := .low, rs := .high, wr := .high, d := x.byte }

/-- After any transactions at all, the byte sent last is on the data lines. -/
theorem Lines.foldl_afterXfer_cons (x : Xfer) (xs : List Xfer) (ls : Lines) :
    (x :: xs).foldl Lines.afterXfer ls =
      { ls with cs := .low, rs := .high, wr := .high, d := lastByte x.byte (xs.map Xfer.byte) } := by
  induction xs generalizing x ls with
  | nil => rfl
  | cons y ys ih => exact ih y (ls.afterXfer x)

theorem Lines.foldl_afterXfer_frame (op : Byte) (args : List Byte) (ls : Lines) :
    (frameXfers op args).foldl Lines.afterXfer ls =
      { ls with cs := .low, rs := .high, wr := .high, d := args.getLastD op } := by
  have hbytes : (args.map dataXfer).map Xfer.byte = args := (List.cons.inj (map_byte_frameXfers op args)).2
  rw [frameXfers, Lines.foldl_afterXfer_cons, hbytes, lastByte_eq_getLastD]
  rfl

theorem getLast?_map_byte (x : Xfer) (xs : List Xfer) :
    (x :: xs).getLast?.map Xfer.byte = some (lastByte x.byte (xs.map Xfer.byte)) := by
  rw [← List.getLast?_map, List.map_cons, List.getLast?_cons, lastByte_eq_getLastD,
    List.getLastD_eq_getLast?]

/-- `t` is `s` after the records: their events, transactions and reads, the lines as their last transaction left them,
the next record due. Latches, `DLY` and `LASTCMD` are left open. -/
def State.Performs (s : State) (records : List Instr) (t : State) : Prop :=
  ∃ la dly lc, t =
    { s with
      lines := (records.flatMap recordXfers).foldl Lines.afterXfer s.lines
      latches := la
      cur := s.cur + (records.flatMap recordBytes).length
      dly := dly
      ev := s.ev ++ records.flatMap (recordEvents s.cfg)
      tx := s.tx ++ records.flatMap recordXfers
      rdLog := s.rdLog ++ List.range' s.cur (records.flatMap recordBytes).length
      lastCmd := lc }

/-- What follows bytes that head what can still be read. -/
theorem State.bytes_past {s : State} {bytes rest : List Byte} (h : s.remaining = bytes ++ rest) :
    s.table.bytes (s.cur + bytes.length) (s.tableLen - (s.cur + bytes.length)) = rest := by
  have hlen := s.remaining_length
  rw [h, List.length_append] at hlen
  rw [State.remaining, show s.tableLen - s.cur = bytes.length + (s.tableLen - (s.cur + bytes.length)) by omega,
    Memory.bytes_add] at h
  exact List.append_inj_right h (Memory.length_bytes ..)

theorem State.Performs.nil (s : State) : s.Performs [] s :=
  ⟨s.latches, s.dly, s.lastCmd, by simp⟩

theorem State.Performs.append {s t u : State} {is js : List Instr} :
    s.Performs is t → t.Performs js u → s.Performs (is ++ js) u := by
  rintro ⟨_, _, _, rfl⟩ ⟨la, dly, lc, rfl⟩
  refine ⟨la, dly, lc, ?_⟩
  simp only [List.flatMap_append, List.foldl_append, List.length_append, List.append_assoc, Nat.add_assoc,
    List.range'_append_1]

/-- One record that lies at the cursor. -/
theorem State.performs_entry (d : Bool) {op : Byte} {args : List Byte} {s : State} (hdue : s.recordDue)
    (hwf : (entry d op args).wf = true) (hfit : s.cur + 2 + args.length ≤ s.tableLen) :
    ∃ t, exec (entry d op args) s = .next t ∧ s.Performs [entry d op args] t := by
  obtain ⟨hop, hn⟩ := wf_entry_iff.mp hwf
  refine ⟨_, exec_entry_fits d hdue hop hn hfit, ?_⟩
  simp only [State.Performs, List.flatMap_singleton, recordEvents_entry, recordXfers_entry, length_recordBytes_entry,
    Lines.foldl_afterXfer_frame, ← Nat.add_assoc, ← List.append_assoc]
  exact ⟨_, _, _, rfl⟩

theorem State.Performs.due {s t : State} {records : List Instr} (hdue : s.recordDue) :
    s.Performs records t → t.recordDue := by
  rintro ⟨_, _, _, rfl⟩
  exact hdue

theorem State.Performs.host {s t : State} {records : List Instr} : s.Performs records t → t.host = s.host := by
  rintro ⟨_, _, _, rfl⟩
  rfl

/-- What follows the records in the table is what is left to read after them. -/
theorem State.Performs.remaining {s t : State} {records : List Instr} {rest : List Byte}
    (hrem : s.remaining = records.flatMap recordBytes ++ rest) : s.Performs records t → t.remaining = rest := by
  rintro ⟨_, _, _, rfl⟩
  exact State.bytes_past hrem

/-- The lines after a list of records: as they were if there is none, and else as the last byte sent leaves them. -/
theorem State.Performs.lines {s t : State} {records : List Instr} (h : s.Performs records t)
    (hentries : ∀ i ∈ records, isEntry i = true ∧ i.wf = true) :
    (records = [] → t.lines = s.lines) ∧
    (records ≠ [] → t.lines = { s.lines with cs := .low, rs := .high, wr := .high, d := t.lines.d } ∧
      t.tx.getLast?.map Xfer.byte = some t.lines.d) := by
  obtain ⟨_, _, _, rfl⟩ := h
  cases records with
  | nil => exact ⟨fun _ => rfl, absurd rfl⟩
  | cons i is =>
    obtain ⟨d, op, args, rfl⟩ := exists_entry_of_isEntry (hentries i (List.mem_cons_self ..)).1
    refine ⟨nofun, fun _ => ?_⟩
    simp only [List.flatMap_cons, recordXfers_entry, frameXfers, List.cons_append, Lines.foldl_afterXfer_cons]
    exact ⟨trivial, by rw [List.getLast?_append_of_ne_nil _ (List.cons_ne_nil _ _), getLast?_map_byte]⟩

/-! ### Runs -/

/-- A run performs the records that lie at the cursor, one step each, and what follows them is left to read. -/
theorem run_records {records : List Instr} (hentries : ∀ i ∈ records, isEntry i = true ∧ i.wf = true)
    {s : State} {rest : List Byte} (hh : s.host = []) (hdue : s.recordDue)
    (hrem : s.remaining = records.flatMap recordBytes ++ rest) :
    ∃ t, s.Performs records t ∧
      ∀ n, Host.Core.run Sys2Proof.core (records.length + n) s = Host.Core.run Sys2Proof.core n t := by
  induction records generalizing s with
  | nil => exact ⟨s, .nil s, fun n => by rw [List.length_nil, Nat.zero_add]⟩
  | cons i is ih =>
    obtain ⟨⟨hi, hwf⟩, his⟩ := List.forall_mem_cons.mp hentries
    rw [List.flatMap_cons, List.append_assoc] at hrem
    have hdec := recordIsSelfDelimiting i (is.flatMap recordBytes ++ rest) hwf (isRequest_of_isEntry hi)
    rw [← hrem] at hdec
    obtain ⟨u, hu, hperf⟩ : ∃ u, exec i s = .next u ∧ s.Performs [i] u := by
      obtain ⟨d, op, args, rfl⟩ := exists_entry_of_isEntry hi
      have hlen := s.remaining_length
      rw [hrem, List.length_append, length_recordBytes_entry] at hlen
      exact State.performs_entry d hdue hwf (by omega)
    obtain ⟨t, ht, hrun⟩ := ih his (hperf.host.trans hh) (hperf.due hdue)
      (hperf.remaining (by rwa [List.flatMap_singleton]))
    refine ⟨t, hperf.append ht, fun n => ?_⟩
    rw [List.length_cons, Nat.add_right_comm, run_succ ((step_nil hh).trans ((engineStep_record hdue hdec).trans hu)),
      hrun]

/-- The interpreter started at `base`, its request taken from the port. -/
def State.startInit (s : State) (base : Nat) : State :=
  { s with port := none, phase := .run, cur := base, istate := .sOpc }

/-- The first step of an accepted INIT starts the interpreter (R125). -/
theorem step_init {s : State} {r : HostReq} (hh : s.host = []) (hs : s.ready) (hport : s.port = some r)
    (hop : r.op = 3) : step s = .next (s.startInit r.base) := by
  rw [step_nil hh, engineStep_accept hs hport (decodeRequest_init hop)]
  exact initStartsInterpreter.2 r.base { s with port := none } hs

/-- A run of INIT performs the records that lie at `base`; the step after them is the engine's on what follows. -/
theorem run_init {s : State} {r : HostReq} {records : List Instr} {rest : List Byte} (hh : s.host = []) (hs : s.ready)
    (hport : s.port = some r) (hop : r.op = 3) (hentries : ∀ i ∈ records, isEntry i = true ∧ i.wf = true)
    (hrem : (s.startInit r.base).remaining = records.flatMap recordBytes ++ rest) :
    ∃ t, (s.startInit r.base).Performs records t ∧ t.recordDue ∧ t.remaining = rest ∧
      ∀ u, engineStep t = .next u → Host.Core.run Sys2Proof.core (records.length + 2) s = .next u := by
  obtain ⟨t, ht, hrun⟩ := run_records (s := s.startInit r.base) hentries hh ⟨rfl, rfl⟩ hrem
  refine ⟨t, ht, ht.due ⟨rfl, rfl⟩, ht.remaining hrem, fun u hu => ?_⟩
  rw [run_succ (step_init hh hs hport hop), hrun, run_succ ((step_nil (ht.host.trans hh)).trans hu), run_zero]

/-! ### What the table reader has read (R134) -/

theorem isEntry_or_eq_endRec {i : Instr} (hi : i.isRequest = false) : isEntry i = true ∨ i = .endRec := by
  cases i with
  | ent | entd => exact .inl rfl
  | endRec => exact .inr rfl
  | _ => cases hi

/-- A decoded record is well formed, and its bytes are those it was read from. -/
theorem eq_recordBytes_of_decodeRecord {bytes rest : List Byte} {i : Instr}
    (h : decodeRecord bytes = .ok (i, rest)) : i.wf = true ∧ bytes = recordBytes i ++ rest := by
  rcases decodeRecord_cases bytes with ⟨-, hdec⟩ | ⟨op, -, -, hdec⟩ | ⟨op, l, more, -, -, -, hdec⟩ |
    ⟨more, hb, hdec⟩ | ⟨op, l, args, more, hop, hb, hn, hdec⟩ <;> cases hdec.symm.trans h
  · exact ⟨rfl, hb⟩
  · have hl : lengthByte (lengthDelay l) args.length = l := by rw [hn, lengthByte_split]
    have hbytes : recordBytes (entry (lengthDelay l) op args) = op :: l :: args := by rw [recordBytes_entry, hl]
    have hmax : args.length ≤ 127 := hn ▸ Nat.le_of_lt_succ (lengthCount l).isLt
    exact ⟨wf_entry_iff.mpr ⟨hop, hmax⟩, hb.trans (congrArg (· ++ rest) hbytes.symm)⟩

/-- The records read are well formed, and the bytes begin with their table. -/
theorem eq_tableBytes_of_parseTable {fuel : Nat} {bytes : List Byte} {records : List Instr} {n : Nat}
    (h : parseTable fuel bytes = some (records, n)) :
    (∀ i ∈ records, isEntry i = true ∧ i.wf = true) ∧ ∃ rest, bytes = tableBytes records ++ rest := by
  induction fuel generalizing bytes records n with
  | zero => cases h
  | succ fuel ih =>
    cases hdec : decodeRecord bytes with
    | error e => rw [parseTable, hdec] at h; cases h
    | ok p =>
      obtain ⟨i, rest⟩ := p
      obtain ⟨hwf, rfl⟩ := eq_recordBytes_of_decodeRecord hdec
      rcases isEntry_or_eq_endRec (decodeRecord_isRecord hdec) with hi | rfl
      · rw [parseTable_entry fuel hi hdec, Option.map_eq_some_iff] at h
        obtain ⟨⟨is, m⟩, his, heq⟩ := h
        obtain ⟨rfl, -⟩ := Prod.mk.inj heq
        obtain ⟨hentries, more, rfl⟩ := ih his
        exact ⟨List.forall_mem_cons.mpr ⟨⟨hi, hwf⟩, hentries⟩, more, by rw [tableBytes_cons, List.append_assoc]⟩
      · rw [parseTable, hdec] at h
        cases h
        exact ⟨nofun, rest, rfl⟩

/-! ### The obligations -/

/-- Settles O45: the records, and then the terminator's step. -/
theorem initPerformsWholeTable : Obligations.InitPerformsWholeTable := by
  intro s r records hh hs hport hop hentries hfit hbytes
  have hrem : s.table.bytes r.base (s.tableLen - r.base) = records.flatMap recordBytes ++ 0#8 ::
      s.table.bytes (r.base + (tableBytes records).length) (s.tableLen - (r.base + (tableBytes records).length)) := by
    rw [List.append_cons, ← tableBytes, show s.tableLen - r.base = (tableBytes records).length +
      (s.tableLen - (r.base + (tableBytes records).length)) by omega, Memory.bytes_add, hbytes]
  obtain ⟨t, ht, hdue, hrest, hrun⟩ := run_init hh hs hport hop hentries hrem
  obtain ⟨hnone, hsome⟩ := ht.lines hentries
  obtain ⟨_, _, _, rfl⟩ := ht
  refine ⟨_, hrun _ (engineStep_sentinel hdue hrest), ?_⟩
  rw [State.takeOpcode_end, tableBytes, List.length_append, ← List.range'_append_1, ← List.append_assoc]
  exact ⟨rfl, rfl, rfl, rfl, rfl, rfl, hnone, hsome, rfl, rfl, rfl, hh, rfl, rfl, rfl⟩

/-- Settles O46: the complete records, and then the bounds fault on what is left. -/
theorem initOnCutTableFaultsPrecisely : Obligations.InitOnCutTableFaultsPrecisely := by
  intro s r records tail e hh hs hport hop hentries hbytes hdec
  obtain ⟨t, ht, hdue, hrest, hrun⟩ := run_init hh hs hport hop hentries hbytes
  have hleft : t.tableLen - t.cur = tail.length := by rw [← t.remaining_length, hrest]
  have haddr : max t.cur t.tableLen = max r.base s.tableLen := by
    have hlen := congrArg List.length hbytes
    rw [Memory.length_bytes, List.length_append] at hlen
    obtain ⟨_, _, _, rfl⟩ := ht
    show max (r.base + (records.flatMap recordBytes).length) s.tableLen = max r.base s.tableLen
    omega
  rw [← hrest] at hdec
  obtain ⟨_, _, _, _, hfault⟩ := State.takesTableBounds_of_error hdec
  rw [hleft, haddr] at hfault
  obtain ⟨hnone, hsome⟩ := ht.lines hentries
  refine ⟨_, hfault ▸ hrun _ (engineStep_cut hdue hdec), ?_⟩
  obtain ⟨_, _, _, rfl⟩ := ht
  rw [← List.range'_append_1, ← List.append_assoc]
  exact ⟨rfl, rfl, rfl, rfl, rfl, rfl, hnone, hsome, rfl, hh, rfl, rfl, rfl⟩

/-- Each record takes more than one byte, and the terminator one. -/
theorem length_lt_length_tableBytes {records : List Instr}
    (hentries : ∀ i ∈ records, isEntry i = true ∧ i.wf = true) :
    records.length < (tableBytes records).length := by
  have hsum : (records.map fun i => 2 + argCount i).length ≤ (records.map fun i => 2 + argCount i).sum :=
    List.length_le_sum_of_one_le _ fun n hn => by
      obtain ⟨i, -, rfl⟩ := List.mem_map.mp hn
      omega
  rw [List.length_map] at hsum
  rw [length_tableBytes hentries]
  omega

/-- Settles O47: a well-formed table is one that INIT performs whole, in no more steps than it has bytes and one. -/
theorem initOnWellFormedTableHalts : Obligations.InitOnWellFormedTableHalts := by
  intro s r hh hs hport hop hwf
  obtain ⟨⟨records, n⟩, hparse⟩ := Option.isSome_iff_exists.mp hwf
  obtain ⟨hentries, rest, hrem⟩ := eq_tableBytes_of_parseTable hparse
  have hlt := length_lt_length_tableBytes hentries
  have hlen := congrArg List.length hrem
  rw [Memory.length_bytes, List.length_append] at hlen
  have hbytes : s.table.bytes r.base (tableBytes records).length = tableBytes records :=
    State.bytes_at_cur (s := s.startInit r.base) hrem
  obtain ⟨t, hrun, hidle, -, -, -, -, -, -, -, hcause, -, hfree, -⟩ :=
    initPerformsWholeTable s r records hh hs hport hop hentries (by omega) hbytes
  exact ⟨records.length + 2, t, by omega, hrun, hidle, hcause, hfree⟩

end Sys2Proof.Machine
end

section
/-! PROOFS. Addressing and pixel (43_addressing_pixel.md R150 to R155): the window corner, SETWIN and WRPIX as one
equation each. Settles O11, O17, O18. -/

namespace Sys2Proof.Machine

/-! ### The window corner (R155) -/

/-- Settles O11: `addSpan` adds as naturals and keeps the low 16 bits. -/
theorem windowCornerWraps : Obligations.WindowCornerWraps := fun v span =>
  BitVec.toNat_ofNat (v.toNat + span) 16

/-! ### SETWIN and WRPIX (R150, R153) -/

/-- The events of the window in the order of R150: the column-range frame, then the row-range frame. -/
theorem append_setWinEvents (ev : List Event) (c : Config) (x0 y0 x1 y1 : Half) :
    ev ++ setWinEvents c x0 y0 x1 y1 =
      ev ++ frameEvents c c.casetOp (rangeArgs x0 x1) ++ frameEvents c c.pasetOp (rangeArgs y0 y1) :=
  (List.append_assoc ..).symm

/-- Settles O17: the code of SETWIN, and the equation of `SetWin` inside an accepted request. -/
theorem setwinSendsTwoRangeFrames : Obligations.SetwinSendsTwoRangeFrames := by
  refine ⟨fun r hop => ?_, fun x0 y0 x1 y1 s hs => ?_⟩
  · obtain ⟨-, -, -, -, hsetwin, -⟩ := requestSelectedByOp r
    exact hsetwin hop
  · obtain ⟨t, ht⟩ := exec_of_ready (i := .setwin x0 y0 x1 y1) rfl hs
    rw [ht, (exec_setwin_next ht).2, State.setWin_eq, append_setWinEvents, State.finish, ← hs]
    rfl

/-- Settles O18: the code of WRPIX, and its equation with the corners named by their residues. -/
theorem wrpixSendsWindowThenColour : Obligations.WrpixSendsWindowThenColour := by
  refine ⟨fun r hop => ?_, fun x y color x1 y1 s hs hx hy => ?_⟩
  · obtain ⟨-, -, -, -, -, hwrpix, -⟩ := requestSelectedByOp r
    exact hwrpix hop
  · obtain rfl := eq_addSpan_of_toNat hx
    obtain rfl := eq_addSpan_of_toNat hy
    obtain ⟨t, ht⟩ := exec_of_ready (i := .wrpix x y color) rfl hs
    rw [ht, (exec_wrpix_next ht).2, append_setWinEvents, List.append_assoc s.tx]
    rfl

end Sys2Proof.Machine
end

section
/-! PROOFS. The panel reset pulse (44_panel_reset.md R165, R166): RSTP as one equation. Settles O19. -/

namespace Sys2Proof.Machine

/-- Settles O19: the code of RSTP, and the equation of the two writes of `RST` and their delays inside an accepted
request. -/
theorem rstpPulsesReset : Obligations.RstpPulsesReset := by
  refine ⟨fun r hop => ?_, fun s hs => ?_⟩
  · obtain ⟨-, -, -, -, -, -, hrstp, -⟩ := requestSelectedByOp r
    exact hrstp hop
  · obtain ⟨t, ht⟩ := exec_of_ready (i := .rstp) rfl hs
    rw [ht, (exec_rstp_next ht).2]

end Sys2Proof.Machine
end

section
/-! PROOFS. Exceptions and the request port (60_exceptions.md R170 to R189): what a fault's entry writes and what leaves
FAULTED, the requests that raise nothing, the host's actions, and a request waiting at its port. Settles O13, O30, O32,
O37, O38, O39, O41, O42, O43, O44. -/

namespace Sys2Proof.Machine

/-! ### The request port and the host's actions are no part of what the engine does -/

/-- The state with another request at its port and other actions of its host to come. -/
def State.withRequests (s : State) (p : Option HostReq) (acts : List HostAct) : State :=
  { s with port := p, host := acts }

section WithRequests

variable (s : State) (p : Option HostReq) (acts : List HostAct)

theorem State.runArgs_withRequests (args : List Byte) :
    (s.withRequests p acts).runArgs args = (s.runArgs args).withRequests p acts := by
  unfold State.runArgs
  rw [apply_ite (State.withRequests · p acts), State.dispatchArgs_eq, State.dispatchArgs_eq]
  rfl

theorem State.runLength_withRequests (l : Byte) (args : List Byte) :
    (s.withRequests p acts).runLength l args = (s.runLength l args).withRequests p acts := by
  unfold State.runLength
  rw [apply_ite (State.withRequests · p acts), ← State.runArgs_withRequests]
  rfl

theorem State.takeOpcode_withRequests (op : Byte) :
    (s.withRequests p acts).takeOpcode op = (s.takeOpcode op).withRequests p acts := by
  simp only [State.takeOpcode_eq, State.withRequests]

theorem State.record_withRequests (op l : Byte) (args : List Byte) :
    (s.withRequests p acts).record op l args = (s.record op l args).withRequests p acts := by
  unfold State.record
  rw [apply_ite (State.withRequests · p acts), State.takeOpcode_withRequests, State.runLength_withRequests]
  rfl

theorem State.haltRecord_withRequests : (s.withRequests p acts).haltRecord = s.haltRecord.withRequests p acts := by
  unfold State.haltRecord
  rw [apply_ite (State.withRequests · p acts), State.takeOpcode_withRequests]
  rfl

theorem State.cutShort_withRequests (e : DecodeError) :
    (s.withRequests p acts).cutShort e = (s.cutShort e).withRequests p acts := by
  cases e with
  | reservedOp | noOpcode => rfl
  | noLength | noArgs => simp only [State.cutShort, State.takeOpcode_withRequests]; rfl

theorem State.afterRequest_withRequests (i : Instr) :
    (s.withRequests p acts).afterRequest i = (s.afterRequest i).withRequests p acts := by
  cases i <;> rfl

theorem State.afterRecord_withRequests (i : Instr) :
    (s.withRequests p acts).afterRecord i = (s.afterRecord i).withRequests p acts := by
  cases i with
  | ent | entd => exact s.record_withRequests ..
  | endRec => exact s.haltRecord_withRequests ..
  | _ => rfl

end WithRequests

/-- An instruction neither reads nor writes the port and the host's actions. -/
theorem exec_withRequests {i : Instr} {s t : State} (h : exec i s = .next t) (p : Option HostReq)
    (acts : List HostAct) : exec i (s.withRequests p acts) = .next (t.withRequests p acts) := by
  cases hi : i.isRequest with
  | true =>
    have hs := ready_of_exec_request hi h
    rw [exec_request_next hi h, exec_request (s := s.withRequests p acts) hi hs, State.afterRequest_withRequests]
    rfl
  | false =>
    have hd := due_of_exec_record hi h
    rw [exec_record_next hi h, exec_record (s := s.withRequests p acts) hi hd, State.afterRecord_withRequests]

/-- Nor does the engine's part of a step, when the engine is not ready and so accepts nothing (60_exceptions.md R188). -/
theorem engineStep_withRequests {s t : State} (hs : ¬ s.ready) (h : engineStep s = .next t) (p : Option HostReq)
    (acts : List HostAct) : engineStep (s.withRequests p acts) = .next (t.withRequests p acts) := by
  rcases engineStep_forms h with ⟨rfl, hp | ⟨hp, -⟩⟩ | ⟨r, i, hp, -⟩ | ⟨r, hp, -⟩ | ⟨i, rest, hd, hdec, hexec⟩ |
    ⟨e, hd, hdec, rfl⟩ | ⟨hp, hi, rfl⟩ | ⟨hp, hi, rfl⟩ | ⟨hp, hi, rfl⟩
  · exact engineStep_faulted hp
  · exact absurd hp hs
  · exact absurd hp hs
  · exact absurd hp hs
  · rw [engineStep_record (s := s.withRequests p acts) hd hdec]
    exact exec_withRequests hexec p acts
  · rw [← State.cutShort_withRequests]
    exact engineStep_cut hd hdec
  · rw [State.resumeLength, ← State.runLength_withRequests]
    exact engineStep_length hp hi
  · rw [State.resumeArgs, ← State.runArgs_withRequests]
    exact engineStep_args hp hi
  · exact engineStep_halt hp hi

/-- What neither reads nor writes the port leaves it as it was. -/
theorem port_eq_of_withRequests {f : State → Host.Outcome State Fault Refusal} {s t : State} (h : f s = .next t)
    (hf : f (s.withRequests s.port s.host) = .next (t.withRequests s.port s.host)) : t.port = s.port := by
  have ht : t = t.withRequests s.port s.host := Host.Outcome.next.inj (h.symm.trans hf)
  rw [ht]
  rfl

theorem exec_port {i : Instr} {s t : State} (h : exec i s = .next t) : t.port = s.port :=
  port_eq_of_withRequests h (exec_withRequests h s.port s.host)

theorem engineStep_port_of_not_ready {s t : State} (hs : ¬ s.ready) (h : engineStep s = .next t) : t.port = s.port :=
  port_eq_of_withRequests h (engineStep_withRequests hs h s.port s.host)

theorem State.withRequests_of_port {s : State} {p : Option HostReq} (h : s.port = p) (acts : List HostAct) :
    s.withRequests p acts = { s with host := acts } := by
  subst h
  rfl

/-- The engine's part of a step is the same whatever the host does next. -/
theorem engineStep_withHost {s t : State} (h : engineStep s = .next t) (acts : List HostAct) :
    engineStep { s with host := acts } = .next { t with host := acts } := by
  by_cases hs : s.ready
  · have not_run {p : Prop} (hrun : s.phase = .run) : p := by simp [show s.phase = .idle from hs] at hrun
    rcases engineStep_forms h with ⟨rfl, hp | ⟨-, hq⟩⟩ | ⟨r, i, -, hq, hd, hexec⟩ | ⟨r, -, hq, ho, rfl⟩ |
      ⟨-, -, hd, -⟩ | ⟨-, hd, -⟩ | ⟨hp, -⟩ | ⟨hp, -⟩ | ⟨hp, -⟩
    · exact engineStep_faulted hp
    · exact engineStep_idle hs hq
    · rw [engineStep_accept (s := { s with host := acts }) hs hq hd,
        ← State.withRequests_of_port (exec_port hexec)]
      exact exec_withRequests hexec none acts
    · exact engineStep_reserved hs hq ho
    · exact not_run hd.1
    · exact not_run hd.1
    · exact not_run hp
    · exact not_run hp
    · exact not_run hp
  · rw [← State.withRequests_of_port (engineStep_port_of_not_ready hs h)]
    exact engineStep_withRequests hs h s.port acts

/-- Settles O32: an action of the host's own is a step of its own, and the engine's step is the same with actions to come
as without. -/
theorem hostActions : Obligations.HostActions := by
  intro s rest
  refine ⟨fun r hh hport => step_present_free hh hport, fun r q t hh hport h => ?_, fun t hh h => ?_,
    fun bytes hh => ⟨_, step_fillTable hh, rfl, Memory.bytes_writeBytes rfl⟩⟩
  · rw [step_nil rfl] at h
    rw [step_present_occupied hh hport, ← hh]
    exact engineStep_withHost h s.host
  · rw [step_nil rfl] at h
    rw [step_pause hh]
    exact engineStep_withHost h rest

/-- Settles O38: the host presents only at a free port, engine reset and the filling of the table leave the port, and an
engine that is not ready accepts nothing. -/
theorem unreadyEngineKeepsRequest : Obligations.UnreadyEngineKeepsRequest := by
  intro s t r hs hport h
  rcases step_cases s with ⟨rest, -, e⟩ | ⟨bytes, rest, -, e⟩ | ⟨q, rest, -, hfree, -⟩ | ⟨acts, -, e⟩
  · rw [e] at h; cases h; exact hport
  · rw [e] at h; cases h; exact hport
  · simp [hport] at hfree
  · rw [e] at h
    exact (engineStep_port_of_not_ready (s := { s with host := acts }) hs h).trans hport

/-! ### Faults and the way out -/

/-- Settles O41, by the two causes. -/
theorem faultEntry : Obligations.FaultEntry := by
  intro s c info
  cases c with
  | tableBounds | reservedOp => exact ⟨rfl, rfl, rfl⟩

/-- Settles O39. -/
theorem reservedOpTaken : Obligations.ReservedOpTaken := fun _ _ hh hs hport hop =>
  (step_nil hh).trans (engineStep_reserved hs hport hop)

/-- Settles O42: the engine's part of a step is to wait, and of the host's actions engine reset alone writes more than
the port and the table. -/
theorem faultedIsLeftByResetOnly : Obligations.FaultedIsLeftByResetOnly := by
  refine fun s hp => ⟨fun hreset => ?_, fun rest hh => ⟨_, step_engineReset hh, rfl, rfl, rfl⟩⟩
  rcases step_cases s with ⟨rest, hh, -⟩ | ⟨bytes, rest, -, e⟩ | ⟨r, rest, -, -, e⟩ | ⟨acts, -, e⟩
  · exact absurd hh (hreset rest)
  · exact ⟨_, e, rfl⟩
  · exact ⟨_, e, rfl⟩
  · exact ⟨_, e.trans (engineStep_faulted hp), rfl⟩

/-- Settles O43, by induction on the number of steps, each of which leaves the state as it is. -/
theorem faultedForEver : Obligations.FaultedForEver := by
  intro n s hp hh
  have hstep : step s = .next s := (step_nil hh).trans (engineStep_faulted hp)
  induction n with
  | zero => exact run_zero s
  | succ n ih => rw [run_succ hstep, ih]

/-! ### Requests -/

theorem State.status_of_ready {s : State} (h : s.ready) : s.status = 0 := by
  rw [State.status, show s.phase = .idle from h]

/-- Every request but INIT ends in its own step. -/
theorem State.afterRequest_of_ne_init (s : State) {i : Instr} (hi : ∀ base, i ≠ .init base) :
    s.afterRequest i = { s with phase := .idle, latches := requestLatches s.cfg s.latches i } := by
  cases i with
  | init base => exact absurd rfl (hi base)
  | _ => rfl

/-- Settles O44: the equation of a request (`exec_request`) writes neither `FCAUSE` nor `FADDR`. -/
theorem requestsRaiseNothing : Obligations.RequestsRaiseNothing := by
  intro i s hi hinit hs
  have hexec := exec_request hi hs
  rw [State.afterRequest_of_ne_init s hinit] at hexec
  exact ⟨_, hexec, rfl, rfl, rfl, (State.status_of_ready rfl).trans (State.status_of_ready hs).symm⟩

/-- Settles O30. -/
theorem stepExecutesAcceptedRequest : Obligations.StepExecutesAcceptedRequest := fun _ _ _ hh hs hport hdec =>
  (step_nil hh).trans (engineStep_accept hs hport hdec)

/-- Settles O37, by the constructors: a request is a body to `accept`, a record one to `perform`. -/
theorem outOfTurnStops : Obligations.OutOfTurnStops := by
  refine fun i s => ⟨fun hi hs => ?_, fun hi hd => ?_⟩
  · cases i with
    | ent | entd | endRec => cases hi
    | _ =>
      simp only [exec, execBuswr, execCmd, execFrame, execInit, execSetwin, execWrpix, execRstp,
        State.accept_of_not_ready hs]
  · cases i with
    | ent | entd | endRec => simp only [exec, execEnt, execEntd, execEndRec, State.perform_of_not_due hd]
    | _ => cases hi

/-- Settles O13. -/
theorem otherBusWidthsRefused : Obligations.OtherBusWidthsRefused := fun _ _ =>
  ⟨fun hw => if_neg hw, fun hw => if_pos hw⟩

end Sys2Proof.Machine
end
